-- ==== Sys2Proof/Word.lean ====
section
/-! DEFINITION. The word types of the block (00_scope.md R5, R6, R8, R11): bytes, port words, and tables of 256 bytes.
All values are unsigned (R11); no signed reading occurs anywhere. -/

namespace Sys2Proof

/-- The 8-bit datapath value of R6. -/
abbrev Byte := BitVec 8

/-- The 32-bit word of the host port (R8). -/
abbrev Word := BitVec 32

/-- 256 entries of 8 bits, indexed 0..255: the shape of S (R21) and of K (R23). -/
abbrev Table := Vector Byte 256

/-- The 10-bit word address of the port (R8, R50); the byte offset is four times it. -/
abbrev WordAddr := BitVec 10

end Sys2Proof
end

