-- ==== Sys2Proof/Syntax.lean ====
section
/-! DEFINITION. The commands (30_encoding.md R83), the fields of a command word (R81), the phases (10_state.md R29)
and the names of the registers in the port window (20_memory.md R52). -/

namespace Sys2Proof

/-- The seven commands of spec/opcode_table.json. The operand is the ARG byte, used unchanged (R82). -/
inductive Instr where
  /-- NOP (R100) -/
  | nop
  /-- INIT (R101) -/
  | init
  /-- KEY_PUSH b (R120) -/
  | keyPush (b : Byte)
  /-- KSA_STEP (R132) -/
  | ksaStep
  /-- KSA_RUN (R133) -/
  | ksaRun
  /-- PRGA_XOR m (R152) -/
  | prgaXor (m : Byte)
  /-- ERR_CLEAR (R102) -/
  | errClear
  deriving DecidableEq, Repr

/-- The four fields of a command word (R81): OPC [3:0], RSV0 [7:4], ARG [15:8], RSV1 [31:16]. -/
structure Fields where
  opc  : BitVec 4
  rsv0 : BitVec 4
  arg  : Byte
  rsv1 : BitVec 16
  deriving DecidableEq, Repr

/-- The three phases of the engine (R29). -/
inductive Phase where
  | ready
  | ksa
  | keyed
  deriving DecidableEq, Repr, Inhabited

/-- The registers of the port window (R52), by the spec's names. -/
inductive Reg where
  | cmd
  | status
  | keylen
  | index
  | out
  | kscount
  | sbox (k : Byte)
  deriving DecidableEq, Repr

end Sys2Proof
end

