-- ==== Sys2Proof/WellFormed.lean ====
section
/-! DEFINITION. Which field values make a legal command word (30_encoding.md R84, R85): RSV0 and RSV1 zero, an assigned
opcode, and ARG zero unless the command takes an operand. A command of `Instr` is well-formed by its type: its operand is
a byte. -/

namespace Sys2Proof

/-- Why a command word is ILLEGAL (R85, R201 code 1). -/
inductive Illegal where
  /-- RSV0 [7:4] is not 0 -/
  | rsv0NotZero
  /-- RSV1 [31:16] is not 0 -/
  | rsv1NotZero
  /-- OPC is 0x7 to 0xF -/
  | reservedOpcode
  /-- ARG is not 0 and the opcode takes no operand -/
  | argNotZero
  deriving DecidableEq, Repr

/-- The opcodes that take an operand byte (R82, R83): KEY_PUSH 0x2 and PRGA_XOR 0x5. -/
def Fields.takesOperand (f : Fields) : Bool := f.opc == 2#4 || f.opc == 5#4

/-- The first check of R84 that the fields fail, if any. -/
def Fields.check (f : Fields) : Option Illegal :=
  if f.rsv0 ≠ 0#4 then some .rsv0NotZero
  else if f.rsv1 ≠ 0#16 then some .rsv1NotZero
  else if 6#4 < f.opc then some .reservedOpcode
  else if f.arg ≠ 0#8 ∧ f.takesOperand = false then some .argNotZero
  else none

/-- The fields pass every check: the word is one of the 517 legal ones (R85). -/
abbrev Fields.WellFormed (f : Fields) : Prop := f.check = none

/-- The field values of a command (R83's rows). -/
def Instr.fields : Instr → Fields
  | .nop       => ⟨0x0#4, 0#4, 0#8, 0#16⟩
  | .init      => ⟨0x1#4, 0#4, 0#8, 0#16⟩
  | .keyPush b => ⟨0x2#4, 0#4, b, 0#16⟩
  | .ksaStep   => ⟨0x3#4, 0#4, 0#8, 0#16⟩
  | .ksaRun    => ⟨0x4#4, 0#4, 0#8, 0#16⟩
  | .prgaXor m => ⟨0x5#4, 0#4, m, 0#16⟩
  | .errClear  => ⟨0x6#4, 0#4, 0#8, 0#16⟩

end Sys2Proof
end

