-- ==== Sys2Proof/Decode.lean ====
section
/-! DEFINITION. The decoder of 30_encoding.md R84, total on all words and rejecting by name; then the encoder, written
from the layout of R81 and the rows of R83; then the rows themselves. -/

namespace Sys2Proof

/-- The fields of a command word (R81). -/
def fieldsOf (w : Word) : Fields where
  opc  := w.extractLsb' 0 4
  rsv0 := w.extractLsb' 4 4
  arg  := w.extractLsb' 8 8
  rsv1 := w.extractLsb' 16 16

/-- A command with no operand: legal only when ARG = 0 (R84). -/
def noOperand (arg : Byte) (i : Instr) : Except Illegal Instr :=
  if arg = 0#8 then .ok i else .error .argNotZero

/-- R84. -/
def decode (w : Word) : Except Illegal Instr :=
  let f := fieldsOf w
  if f.rsv0 ≠ 0#4 then .error .rsv0NotZero
  else if f.rsv1 ≠ 0#16 then .error .rsv1NotZero
  else match f.opc.toNat with
    | 0x0 => noOperand f.arg .nop
    | 0x1 => noOperand f.arg .init
    | 0x2 => .ok (.keyPush f.arg)
    | 0x3 => noOperand f.arg .ksaStep
    | 0x4 => noOperand f.arg .ksaRun
    | 0x5 => .ok (.prgaXor f.arg)
    | 0x6 => noOperand f.arg .errClear
    | _   => .error .reservedOpcode

/-- The word of the given fields: `{RSV1, ARG, RSV0, OPC}` (R81). -/
def wordOf (f : Fields) : Word := f.rsv1 ++ f.arg ++ f.rsv0 ++ f.opc

/-- The command word of a command (R83). -/
def encode (i : Instr) : Word := wordOf i.fields

/-- One row of R83: a word `w` encodes the row's command exactly when `w &&& mask = pattern`. -/
structure OpcodeRow where
  mnemonic : String
  pattern  : Word
  mask     : Word
  deriving DecidableEq, Repr

/-- R83's row of a command. -/
def rowOf : Instr → OpcodeRow
  | .nop       => ⟨"NOP", 0x00000000#32, 0xFFFFFFFF#32⟩
  | .init      => ⟨"INIT", 0x00000001#32, 0xFFFFFFFF#32⟩
  | .keyPush _ => ⟨"KEY_PUSH", 0x00000002#32, 0xFFFF00FF#32⟩
  | .ksaStep   => ⟨"KSA_STEP", 0x00000003#32, 0xFFFFFFFF#32⟩
  | .ksaRun    => ⟨"KSA_RUN", 0x00000004#32, 0xFFFFFFFF#32⟩
  | .prgaXor _ => ⟨"PRGA_XOR", 0x00000005#32, 0xFFFF00FF#32⟩
  | .errClear  => ⟨"ERR_CLEAR", 0x00000006#32, 0xFFFFFFFF#32⟩

/-- The seven rows of R83, in the table's order. -/
def opcodeRows : List OpcodeRow :=
  [.nop, .init, .keyPush 0, .ksaStep, .ksaRun, .prgaXor 0, .errClear].map rowOf

/-- The row's match and mask accept the word (R83). -/
def OpcodeRow.accepts (row : OpcodeRow) (w : Word) : Bool := w &&& row.mask == row.pattern

/-- The 32-bit command word whose bits are `w`, of which `nbits` are given and the rest are 0; none where the bits do not
fit one command word (every command is exactly one 32-bit word, R86). -/
def tableWord (nbits w : Nat) : Option Word :=
  let v := w % 2 ^ nbits
  if v < 2 ^ 32 then some (BitVec.ofNat 32 v) else none

/-- What the decoder reads from the bits of an opcode-table row. -/
def decodeTableWord (nbits w : Nat) : Option Instr :=
  match tableWord nbits w with
  | none => none
  | some v =>
    match decode v with
    | .ok i => some i
    | .error _ => none

end Sys2Proof
end

