-- ==== Sys2Proof/Config.lean ====
section
/-! DEFINITION. What an implementation fixes (00_scope.md R9, 20_memory.md R63) and the free values (`any`, R13).
Every constant here is opaque: no proof can see a value. -/

namespace Sys2Proof

/-- LAT_INIT (R9): edges from acceptance of INIT to its completion, finite and at least 1. Log entry 3. -/
opaque Config.latInit : ℕ+

/-- LAT_KEY_PUSH (R9). Log entry 3. -/
opaque Config.latKeyPush : ℕ+

/-- LAT_KSA_STEP (R9). Log entry 3. -/
opaque Config.latKsaStep : ℕ+

/-- LAT_KSA_RUN(r) (R9), a function of the round counter at acceptance. Log entry 3. -/
opaque Config.latKsaRun : BitVec 9 → ℕ+

/-- LAT_PRGA_XOR (R9). Log entry 3. -/
opaque Config.latPrgaXor : ℕ+

/-- LAT_RESET_INIT (R9): the implicit INIT after reset. Log entries 3 and 8. -/
opaque Config.latResetInit : ℕ+

/-- RC4PE_BASE (R63): where the platform maps the window; no rule depends on it. Log entry 20. -/
opaque Config.rc4peBase : Nat

/-- The n-th free 32-bit value (R13 `any`, R51, R59); narrower free values are its low bits. Log entry 5. -/
opaque Config.freeWord : Nat → Word

/-- The n-th free table: S and K while they are undefined (R230). Log entry 6. -/
opaque Config.freeTable : Nat → Table

/-- The n-th free phase: PHASE while it is undefined (R230). Log entry 6. -/
opaque Config.freePhase : Nat → Phase

/-- How many chunk factors above the default 2 the host software supports: the upper bound is the host's choice (S5 of
93_implementation_defined.md). Log entry 21. -/
opaque Config.chunkFactorsAboveDefault : Nat

/-- HOST_NARROW_RENDER (44_host.md R178, D33): what the host does at width W with a value of 2^W or more, which R175 does not
render; a call meets only W = 4 with an output of 16 or more. A string is what it renders (widened, truncated or other); `none`
is that it rejects the value. DESIGN CHOICE: the choice is a function of W and the value alone. Log entry 23. -/
opaque Config.hostNarrowRender : Nat → Nat → Option (List Char)

end Sys2Proof
end

