-- ==== Sys2Proof/Machine/State.lean ====
section
/-! DEFINITION. The state of one RC4PE (10_state.md R20, 20_memory.md R50), as plain data, and its reset value (R37).
There is no byte-addressable memory: S and K are the only storage and the port window holds no state of its own
(20_memory.md, log entry 10). -/

namespace Sys2Proof.Machine

/-- How the machine can stop with a fault: it cannot. No behaviour of the block is a fault or a stuck state (60_exceptions.md
R205, R207; 93_implementation_defined.md after U18), so this type has no constructor. Log entry 12. -/
inductive Fault
  deriving DecidableEq, Repr

/-- How the model can refuse. -/
inductive Refusal where
  /-- Raised by an arm of `exec` whose command has no meaning yet; no arm raises it in this model. Safe. -/
  | notModelled (mnemonic : String)
  /-- Raised on the host's side by `memRead` and `memWrite` (Machine/HostSide.lean) for an access that the port cannot
  express: a size other than 4 bytes, an address that is no multiple of 4 or is outside the window (20_memory.md R56, U14).
  Never raised by `step`. Safe. -/
  | accessForm (addr size : Nat)
  deriving DecidableEq, Repr

/-- The input pins of the port at one rising edge of `clk` (20_memory.md R50). -/
structure Pins where
  rst   : Bool
  req   : Bool
  we    : Bool
  waddr : WordAddr
  wdata : Word
  deriving DecidableEq, Repr

/-- No access and no reset. -/
def Pins.idle : Pins := ⟨false, false, false, 0#10, 0#32⟩

/-- A read of the register at a word address. -/
def Pins.read (a : WordAddr) : Pins := ⟨false, true, false, a, 0#32⟩

/-- A write of `v` at a word address. -/
def Pins.write (a : WordAddr) (v : Word) : Pins := ⟨false, true, true, a, v⟩

/-- `rst` asserted, no access. -/
def Pins.reset : Pins := ⟨true, false, false, 0#10, 0#32⟩

/-- The architectural state of R20, the port's read data, and the model's own bookkeeping. -/
structure State where
  /-- S, the permutation table (R21) -/
  sbox : Table
  /-- K, the key buffer (R23) -/
  key : Table
  /-- KLEN, the key length, 0..256 (R24) -/
  klen : BitVec 9
  /-- R, the KSA round counter, 0..256 (R25) -/
  r : BitVec 9
  /-- I, the PRGA index i (R26) -/
  i : Byte
  /-- J, the KSA accumulator, then the PRGA index j (R27) -/
  j : Byte
  /-- KS, the last keystream byte (R28) -/
  ks : Byte
  /-- DOUT, the last XOR output (R28) -/
  dout : Byte
  /-- KSCOUNT, PRGA rounds since the KSA completed (R30) -/
  kscount : Word
  /-- PHASE (R29) -/
  phase : Phase
  /-- BUSY: a command is in flight (R31) -/
  busy : Bool
  /-- PEND: the command in flight (R31) -/
  pend : Option Instr
  /-- ERR: the code of the last rejected command (R32) -/
  err : BitVec 4
  /-- what `rdata` carries until the next edge (R50, R51) -/
  rdata : Word
  /-- MODEL's own: edges left until the command in flight completes (R9), log entry 3 -/
  left : Nat
  /-- MODEL's own: the pins at the coming edges, the next edge first; an idle host once it is empty, log entry 4 -/
  inputs : List Pins
  /-- MODEL's own: how many free values have been drawn, log entry 5 -/
  draws : Nat
  deriving DecidableEq, Repr

/-- The identity permutation, S[k] = k (R21, R101). -/
def identityTable : Table := ⟨((List.range 256).map (BitVec.ofNat 8)).toArray, by simp⟩

/-- What K holds at reset: the spec gives no value; DESIGN CHOICE zero, log entry 1. -/
def zeroTable : Table := Vector.replicate 256 0#8

/-- The reset state: R37's table, after the implicit INIT has completed (log entry 2), the host idle. -/
def State.reset : State where
  sbox := identityTable
  key := zeroTable
  klen := 0
  r := 0
  i := 0
  j := 0
  ks := 0
  dout := 0
  kscount := 0
  phase := .ready
  busy := false
  pend := none
  err := 0
  rdata := Config.freeWord 0
  left := 0
  inputs := []
  draws := 1

end Sys2Proof.Machine
end

