-- ==== Sys2Proof/Machine/Flags.lean ====
section
/-! DEFINITION. The status flags BUSY, PHASE and ERR (10_state.md R38): their codes (R29, 60_exceptions.md R201), the STATUS
word (20_memory.md R53), and the checks that acceptance makes on them (60_exceptions.md R200, R202). -/

namespace Sys2Proof.Machine

/-- The code of a phase at STATUS[3:2] (R29); code 3 is never produced. -/
def phaseCode : Phase → BitVec 2
  | .ready => 0
  | .ksa   => 1
  | .keyed => 2

/-- The error codes of R201. -/
inductive ErrCode where
  | none
  | illegal
  | busy
  | state
  | keyEmpty
  | keyFull
  deriving DecidableEq, Repr

/-- The value of ERR for a code (R201); 6..15 are never produced. -/
def errValue : ErrCode → BitVec 4
  | .none     => 0
  | .illegal  => 1
  | .busy     => 2
  | .state    => 3
  | .keyEmpty => 4
  | .keyFull  => 5

/-- The STATUS word `zext_32({ERR, PHASE code, 0b0, BUSY})` (R53, R59). -/
def statusWord (err : BitVec 4) (phaseBits : BitVec 2) (busy : Bool) : Word :=
  (err ++ phaseBits ++ 0#1 ++ BitVec.ofBool busy).setWidth 32

/-- `phase_ok` of R202. NOP and ERR_CLEAR are admitted in every phase. -/
def phaseOk : Instr → Phase → Bool
  | .nop,       _      => true
  | .errClear,  _      => true
  | .init,      _      => true
  | .keyPush _, .ready => true
  | .keyPush _, .ksa   => false
  | .keyPush _, .keyed => false
  | .ksaStep,   .ready => true
  | .ksaStep,   .ksa   => true
  | .ksaStep,   .keyed => false
  | .ksaRun,    .ready => true
  | .ksaRun,    .ksa   => true
  | .ksaRun,    .keyed => false
  | .prgaXor _, .ready => false
  | .prgaXor _, .ksa   => false
  | .prgaXor _, .keyed => true

/-- The commands that need a key: KSA_STEP and KSA_RUN (R200, code KEY_EMPTY). -/
def needsKey : Instr → Bool
  | .nop       => false
  | .init      => false
  | .keyPush _ => false
  | .ksaStep   => true
  | .ksaRun    => true
  | .prgaXor _ => false
  | .errClear  => false

/-- The command that appends to the key: KEY_PUSH (R200, code KEY_FULL). -/
def appendsKey : Instr → Bool
  | .nop       => false
  | .init      => false
  | .keyPush _ => true
  | .ksaStep   => false
  | .ksaRun    => false
  | .prgaXor _ => false
  | .errClear  => false

/-- The first check of R200 that a command which sets BUSY fails, in the order of R204; none when it is accepted. -/
def rejectionOf (c : Instr) (s : State) : Option ErrCode :=
  if s.busy then some .busy
  else if phaseOk c s.phase = false then some .state
  else if needsKey c ∧ s.klen = 0#9 then some .keyEmpty
  else if appendsKey c ∧ s.klen = 256#9 then some .keyFull
  else none

end Sys2Proof.Machine
end

