-- ==== Sys2Proof/Machine/Operands.lean ====
section
/-! DEFINITION. The operand forms: table entries and the swap (00_scope.md R13), the index and sum arithmetic (R12), the
XOR datapath (43_prga.md R151). The commands' own operand is the ARG byte, used unchanged (30_encoding.md R82), which the
decoder has placed in the command. -/

namespace Sys2Proof.Machine

/-- Entry `k` of a table (R13). An 8-bit index is always in range (R69). -/
def entry (t : Table) (k : Byte) : Byte := t[k.toNat]'k.isLt

/-- A table with entry `k` replaced (R13). -/
def setEntry (t : Table) (k v : Byte) : Table := t.set k.toNat v k.isLt

/-- `swap(a, b)` of R13: one indivisible update; nothing changes when a = b (70_reset_and_hazards.md R238). -/
def swapEntries (t : Table) (a b : Byte) : Table :=
  let tmp := entry t a
  setEntry (setEntry t a (entry t b)) b tmp

/-- A sum of bytes formed on naturals and reduced modulo 256 once (R12). -/
def sumMod256 (xs : List Byte) : Byte := BitVec.ofNat 8 ((xs.map BitVec.toNat).sum % 256)

/-- The KSA round index `R[7:0]` (42_ksa.md R130). -/
def roundIndex (r : BitVec 9) : Byte := r.extractLsb' 0 8

/-- The key index `r mod KLEN` (R130), which is below KLEN, hence a table index, whenever KLEN ≥ 1 (R69). -/
def keyIndex (rr : Byte) (klen : BitVec 9) : Byte := BitVec.ofNat 8 (rr.toNat % klen.toNat)

/-- The index at which KEY_PUSH stores: KLEN, which is below 256 whenever a push was accepted (41_key.md R120). -/
def pushIndex (klen : BitVec 9) : Byte := klen.extractLsb' 0 8

/-- The XOR combination of a message byte with a keystream byte (R151). -/
def xorByte (m ks : Byte) : Byte := m ^^^ ks

end Sys2Proof.Machine
end

