-- ==== Sys2Proof/Machine/Ops.lean ====
section
/-! DEFINITION. The shared operations on the state: rejecting a command (the block's one exceptional event, 60_exceptions.md
R203, R207), clearing the record (R208), accepting a command (10_state.md R31), and handling a command that sets BUSY (R200). -/

namespace Sys2Proof.Machine

/-- `raise Reject(code)` (R203): ERR takes the code and nothing else changes. Nothing is saved and control goes nowhere
(R207); a later rejection overwrites the code (R206). -/
def reject (code : ErrCode) (s : State) : State := { s with err := errValue code }

/-- The record of the last rejection is cleared: ERR = 0 (R102, R208). There is no other return. -/
def clearErr (s : State) : State := { s with err := errValue .none }

/-- Edges from acceptance to completion (R9). NOP and ERR_CLEAR are never pending (R31), their entry is never used. -/
def latency (c : Instr) (r : BitVec 9) : Nat :=
  match c with
  | .nop       => 1
  | .init      => Config.latInit
  | .keyPush _ => Config.latKeyPush
  | .ksaStep   => Config.latKsaStep
  | .ksaRun    => Config.latKsaRun r
  | .prgaXor _ => Config.latPrgaXor
  | .errClear  => 1

/-- Acceptance (R31, R200): BUSY = 1 and PEND holds the command; it completes after its latency. -/
def accept (c : Instr) (s : State) : State :=
  { s with busy := true, pend := some c, left := latency c s.r }

/-- A write of a command that sets BUSY: accepted or rejected by the checks of R200, in their order. -/
def submit (c : Instr) (s : State) : State :=
  match rejectionOf c s with
  | some code => reject code s
  | none => accept c s

end Sys2Proof.Machine
end

