-- ==== Sys2Proof/Machine/Control.lean ====
section
/-! DEFINITION. The control commands NOP, INIT and ERR_CLEAR (40_control.md). `exec…` is what the write of the command word
does (60_exceptions.md R200); `…Effect` is what the command's completion does (10_state.md R31). -/

namespace Sys2Proof.Machine

/-- NOP (R100): no effect, at any BUSY and in every phase. -/
def execNop (s : State) : Host.Outcome State Fault Refusal := .next s

/-- ERR_CLEAR (R102): ERR = 0 at the write, at any BUSY and in every phase; a command in flight continues. -/
def execErrClear (s : State) : Host.Outcome State Fault Refusal := .next (clearErr s)

/-- INIT (R101) at its write. -/
def execInit (s : State) : Host.Outcome State Fault Refusal := .next (submit .init s)

/-- INIT (R101) at its completion, also run by reset (70_reset_and_hazards.md R231). K and ERR are kept. -/
def initEffect (s : State) : State :=
  { s with
    sbox := identityTable
    klen := 0
    r := 0
    i := 0
    j := 0
    ks := 0
    dout := 0
    kscount := 0
    phase := .ready }

end Sys2Proof.Machine
end

