-- ==== Sys2Proof/Machine/Key.lean ====
section
/-! DEFINITION. Key loading, KEY_PUSH (41_key.md). -/

namespace Sys2Proof.Machine

/-- KEY_PUSH b (R120) at its write. -/
def execKeyPush (b : Byte) (s : State) : Host.Outcome State Fault Refusal := .next (submit (.keyPush b) s)

/-- KEY_PUSH b (R120) at its completion: `K[KLEN] <- b; KLEN <- KLEN + 1`. -/
def keyPushEffect (b : Byte) (s : State) : State :=
  { s with key := setEntry s.key (pushIndex s.klen) b, klen := s.klen + 1 }

end Sys2Proof.Machine
end

