-- ==== Sys2Proof/Machine/Ksa.lean ====
section
/-! DEFINITION. Key scheduling, KSA_STEP and KSA_RUN (42_ksa.md). -/

namespace Sys2Proof.Machine

/-- The new accumulator of a round, `(J + S[r] + K[r mod KLEN]) mod 256` (R130), read before the swap (R239). -/
def ksaNextJ (s : State) : Byte :=
  let rr := roundIndex s.r
  sumMod256 [s.j, entry s.sbox rr, entry s.key (keyIndex rr s.klen)]

/-- `ksa_finish()` (R131). -/
def ksaFinish (s : State) : State := { s with phase := .keyed, i := 0, j := 0, kscount := 0 }

/-- `ksa_round()` (R130). -/
def ksaRound (s : State) : State :=
  let jn := ksaNextJ s
  let s' := { s with sbox := swapEntries s.sbox (roundIndex s.r) jn, j := jn, r := s.r + 1 }
  if s'.r = 256#9 then ksaFinish s' else s'

/-- `n` rounds one after the other. -/
def ksaRounds : Nat → State → State
  | 0, s => s
  | n + 1, s => ksaRounds n (ksaRound s)

/-- KSA_STEP (R132) at its write. -/
def execKsaStep (s : State) : Host.Outcome State Fault Refusal := .next (submit .ksaStep s)

/-- KSA_STEP (R132) at its completion: one round; PHASE = KSA while rounds remain. -/
def ksaStepEffect (s : State) : State :=
  let s' := ksaRound s
  if s'.r < 256#9 then { s' with phase := .ksa } else s'

/-- KSA_RUN (R133) at its write. -/
def execKsaRun (s : State) : Host.Outcome State Fault Refusal := .next (submit .ksaRun s)

/-- KSA_RUN (R133) at its completion: `while R < 256: ksa_round()`, which is 256 - R rounds. -/
def ksaRunEffect (s : State) : State := ksaRounds (256 - s.r.toNat) s

end Sys2Proof.Machine
end

