-- ==== Sys2Proof/Machine/Prga.lean ====
section
/-! DEFINITION. Keystream generation and XOR, PRGA_XOR (43_prga.md). -/

namespace Sys2Proof.Machine

/-- `prga_round()` (R150): the state after the index updates and the swap. S[I] is read with the new I, before the swap. -/
def prgaRound (s : State) : State :=
  let i' := sumMod256 [s.i, 1#8]
  let j' := sumMod256 [s.j, entry s.sbox i']
  { s with i := i', j := j', sbox := swapEntries s.sbox i' j' }

/-- The byte `prga_round()` returns, `S[t]` with `t = (S[I] + S[J]) mod 256`, both read AFTER the swap (R150, R240), so
this takes the state after the swap. -/
def keystreamByte (s : State) : Byte :=
  entry s.sbox (sumMod256 [entry s.sbox s.i, entry s.sbox s.j])

/-- PRGA_XOR m (R152) at its write. -/
def execPrgaXor (m : Byte) (s : State) : Host.Outcome State Fault Refusal := .next (submit (.prgaXor m) s)

/-- PRGA_XOR m (R152) at its completion. -/
def prgaXorEffect (m : Byte) (s : State) : State :=
  let s' := prgaRound s
  let ks := keystreamByte s'
  { s' with ks := ks, dout := xorByte m ks, kscount := s.kscount + 1 }

end Sys2Proof.Machine
end

