-- ==== Sys2Proof/Machine/Dispatch.lean ====
section
/-! DEFINITION. What the write of a legal command word does, one arm per command (60_exceptions.md R200). -/

namespace Sys2Proof.Machine

def exec (i : Instr) (s : State) : Host.Outcome State Fault Refusal :=
  match i with
  | .nop => Sys2Proof.Machine.execNop s
  | .init => Sys2Proof.Machine.execInit s
  | .keyPush b => Sys2Proof.Machine.execKeyPush b s
  | .ksaStep => Sys2Proof.Machine.execKsaStep s
  | .ksaRun => Sys2Proof.Machine.execKsaRun s
  | .prgaXor m => Sys2Proof.Machine.execPrgaXor m s
  | .errClear => Sys2Proof.Machine.execErrClear s

end Sys2Proof.Machine
end

