-- ==== Sys2Proof/Machine/Engine.lean ====
section
/-! DEFINITION. The engine agent (10_state.md R31): the effect of the command in flight, its completion as one update, and
what the engine does at one edge. -/

namespace Sys2Proof.Machine

/-- The whole effect of a pending command. NOP and ERR_CLEAR take effect at their write and are never pending (R31). -/
def effect (c : Instr) (s : State) : State :=
  match c with
  | .nop       => s
  | .init      => initEffect s
  | .keyPush b => keyPushEffect b s
  | .ksaStep   => ksaStepEffect s
  | .ksaRun    => ksaRunEffect s
  | .prgaXor m => prgaXorEffect m s
  | .errClear  => s

/-- The effect of what is pending, if anything is. -/
def pendEffect (s : State) : State :=
  match s.pend with
  | none => s
  | some c => effect c s

/-- Completion (R31): the effect of PEND, `BUSY <- 0; PEND <- none`, as one indivisible update. -/
def complete (s : State) : State :=
  { pendEffect s with busy := false, pend := none, left := 0 }

/-- The engine at one edge with BUSY = 1: the command completes at the edge its latency ends on. -/
def engineTick (s : State) : State :=
  if s.left ≤ 1 then complete s else { s with left := s.left - 1 }

/-- A legal command word written while nothing else happens, and its completion if it was accepted: what the host's
`DO c` (30_encoding.md R88) does to the registers, without the port's cycles. -/
def perform (c : Instr) (s : State) : State :=
  match exec c s with
  | .next t => if s.busy = false ∧ t.busy = true then complete t else t
  | .fault _ => s
  | .refused _ => s

/-- `perform` for each command of a list, in order. -/
def performAll : List Instr → State → State
  | [], s => s
  | c :: cs, s => performAll cs (perform c s)

end Sys2Proof.Machine
end

