-- ==== Sys2Proof/Machine/Port.lean ====
section
/-! DEFINITION. The host port (20_memory.md): the register map and register reads, the handling of an access, reset
(70_reset_and_hazards.md R230), and one rising edge of `clk` (R51). -/

namespace Sys2Proof.Machine

/-- The word address of a register; its byte offset is four times this (R52). -/
def regAddr : Reg → WordAddr
  | .cmd     => 0x000#10
  | .status  => 0x001#10
  | .keylen  => 0x002#10
  | .index   => 0x003#10
  | .out     => 0x004#10
  | .kscount => 0x005#10
  | .sbox k  => 0x100#10 + k.setWidth 10

/-- The register at a word address; none where the window is unmapped (R52). -/
def regAt (a : WordAddr) : Option Reg :=
  match a.toNat with
  | 0 => some .cmd
  | 1 => some .status
  | 2 => some .keylen
  | 3 => some .index
  | 4 => some .out
  | 5 => some .kscount
  | n => if 0x100 ≤ n ∧ n < 0x200 then some (.sbox (BitVec.ofNat 8 (n - 0x100))) else none

/-- The field bits of INDEX, `{R, J, I}` (R54). -/
def indexBits (s : State) : BitVec 25 := s.r ++ s.j ++ s.i

/-- The field bits of OUT, `{KS, DOUT}` (R54). -/
def outBits (s : State) : BitVec 16 := s.ks ++ s.dout

/-- What a register's `w` field bits read: their value, or the low bits of the free value while BUSY = 1 (R59). -/
def fieldOrFree {w : Nat} (free : Word) (busy : Bool) (v : BitVec w) : Word :=
  ((if busy then free.setWidth w else v) : BitVec w).setWidth 32

/-- `reg_read` of R59 for a mapped register; `free` is the `any` of this read. -/
def readReg (free : Word) (s : State) : Reg → Word
  | .cmd     => 0#32
  | .status  => statusWord s.err (if s.busy then free.setWidth 2 else phaseCode s.phase) s.busy
  | .keylen  => fieldOrFree free s.busy s.klen
  | .index   => fieldOrFree free s.busy (indexBits s)
  | .out     => fieldOrFree free s.busy (outBits s)
  | .kscount => fieldOrFree free s.busy s.kscount
  | .sbox k  => fieldOrFree free s.busy (entry s.sbox k)

/-- `reg_read` of R59: an unmapped offset reads 0 (R58). -/
def portRead (free : Word) (s : State) (a : WordAddr) : Word :=
  match regAt a with
  | some reg => readReg free s reg
  | none => 0#32

/-- `on_cmd_write(w)` (60_exceptions.md R200): an illegal word is rejected, a legal one is handled by its command. -/
def cmdWrite (w : Word) (s : State) : Host.Outcome State Fault Refusal :=
  match decode w with
  | .error _ => .next (reject .illegal s)
  | .ok c => exec c s

/-- A write through the port: CMD submits a command word, every other offset ignores the write (R57). -/
def portWrite (a : WordAddr) (v : Word) (s : State) : Host.Outcome State Fault Refusal :=
  match regAt a with
  | some .cmd => cmdWrite v s
  | _ => .next s

/-- The host access at an edge with `rst` = 0 (R51); `free` is the edge's free value. -/
def hostAccess (p : Pins) (free : Word) (s : State) : Host.Outcome State Fault Refusal :=
  match p.req, p.we with
  | false, _ => .next s
  | true, true => portWrite p.waddr p.wdata s
  | true, false => .next { s with rdata := portRead free s p.waddr }

/-- The port in the cycle after an edge: `rdata` is `any` unless the edge was a read (R51), and one free value is drawn. -/
def nextCycle (s : State) : State :=
  { s with rdata := Config.freeWord s.draws, draws := s.draws + 1 }

/-- An edge with `rst` = 1 (R230): INIT is pending, ERR = 0, what was in flight is abandoned, and everything else is
undefined: a free value each. Called after `nextCycle`, so `rdata` is free already. Log entries 6 and 8. -/
def resetEdge (s : State) : State :=
  { s with
    sbox := Config.freeTable s.draws
    key := Config.freeTable (s.draws + 1)
    klen := (Config.freeWord s.draws).setWidth 9
    r := (Config.freeWord (s.draws + 1)).setWidth 9
    i := (Config.freeWord (s.draws + 2)).setWidth 8
    j := (Config.freeWord (s.draws + 3)).setWidth 8
    ks := (Config.freeWord (s.draws + 4)).setWidth 8
    dout := (Config.freeWord (s.draws + 5)).setWidth 8
    kscount := Config.freeWord (s.draws + 6)
    phase := Config.freePhase s.draws
    busy := true
    pend := some .init
    err := errValue .none
    left := Config.latResetInit
    draws := s.draws + 7 }

/-- One rising edge with `rst` = 0: the host access is evaluated on the state before the edge, then the engine acts if a
command was in flight before the edge (R51, R204; log entry 7). -/
def accessEdge (p : Pins) (s : State) : Host.Outcome State Fault Refusal :=
  match hostAccess p (Config.freeWord s.draws) (nextCycle s) with
  | .next t => .next (if s.busy then engineTick t else t)
  | .fault f => .fault f
  | .refused x => .refused x

/-- One rising edge of `clk` with the given pins. -/
def clockEdge (p : Pins) (s : State) : Host.Outcome State Fault Refusal :=
  if p.rst then .next (resetEdge (nextCycle s)) else accessEdge p s

/-- The pins at the next edge: the first of `inputs`, an idle host once they are used up. -/
def nextPins (s : State) : Pins := s.inputs.head?.getD Pins.idle

/-- The state whose coming pins begin after the next edge. -/
def dropPins (s : State) : State := { s with inputs := s.inputs.tail }

/-- The state with one more setting of the pins, for the very next edge. -/
def present (p : Pins) (s : State) : State := { s with inputs := p :: s.inputs }

end Sys2Proof.Machine
end

