-- ==== Sys2Proof/Machine/Step.lean ====
section
/-! DEFINITION. One step: one rising edge of `clk` (20_memory.md R51). -/

namespace Sys2Proof.Machine

/-- The next edge, with the pins the host presents at it. -/
def step (s : State) : Host.Outcome State Fault Refusal := clockEdge (nextPins s) (dropPins s)

/-- The host writes the given command word to CMD at the very next edge, the only way a command reaches the block
(30_encoding.md R80; log entry 9). Bits that fit no command word place nothing. -/
def State.withFetchWord (s : State) (nbits w : Nat) : State :=
  match tableWord nbits w with
  | some v => present (Pins.write (regAddr .cmd) v) s
  | none => s

end Sys2Proof.Machine
end

