-- ==== Sys2Proof/Machine/HostSide.lean ====
section
/-! DEFINITION. The host's side of the port: the access primitives (00_scope.md R13, 20_memory.md R56), the assembly
statements and pseudo-instructions (30_encoding.md R87, R88), a host that runs them against the machine, and the call program
(44_host.md R170, R171). None of it is behaviour of the block (44_host.md's opening). Log entry 13. -/

namespace Sys2Proof.Machine

/-- An access exists only for 4 bytes at a multiple of 4 below 0x1000 (R56). -/
def accessExists (addr size : Nat) : Bool := size == 4 && addr % 4 == 0 && decide (addr < 0x1000)

/-- `MemRead(addr, size)` of R13 as pin settings; any form the port cannot express is refused (R56, U14). -/
def memRead (addr size : Nat) : Except Refusal Pins :=
  if accessExists addr size then .ok (Pins.read (BitVec.ofNat 10 (addr / 4))) else .error (.accessForm addr size)

/-- `MemWrite(addr, size, v)` of R13 as pin settings; any form the port cannot express is refused (R56, U14). -/
def memWrite (addr size : Nat) (v : Word) : Except Refusal Pins :=
  if accessExists addr size then .ok (Pins.write (BitVec.ofNat 10 (addr / 4)) v) else .error (.accessForm addr size)

/-- `offset(reg)` of R87: the byte offset of a register (R52). -/
def regOffset (reg : Reg) : Nat := 4 * (regAddr reg).toNat

/-- A register's address on the host's bus: the platform puts the window at RC4PE_BASE (R63). -/
def busAddress (reg : Reg) : Nat := Config.rc4peBase + regOffset reg

/-- The assembly statements of R87, operands as written (any number). -/
inductive Stmt where
  | nop
  | init
  | keyPush (b : Nat)
  | ksaStep
  | ksaRun
  | prgaXor (m : Nat)
  | errClear
  | wr (reg : Reg) (v : Word)
  | rd (reg : Reg)
  deriving DecidableEq, Repr

/-- Why the assembler refuses (R87, R88). -/
inductive AsmError where
  /-- an operand outside 0..255 (R87) -/
  | operandRange (v : Nat)
  /-- LOADKEY with no byte or more than 256 (R88) -/
  | keyLength (n : Nat)
  deriving DecidableEq, Repr

/-- The pins of a command write, `MemWrite(0x000, 4, encode c)` (R87). -/
def issue (c : Instr) : Pins := Pins.write (regAddr .cmd) (encode c)

/-- R87: the access a statement stands for. -/
def assemble : Stmt → Except AsmError Pins
  | .nop       => .ok (issue .nop)
  | .init      => .ok (issue .init)
  | .keyPush b => if b ≤ 255 then .ok (issue (.keyPush (BitVec.ofNat 8 b))) else .error (.operandRange b)
  | .ksaStep   => .ok (issue .ksaStep)
  | .ksaRun    => .ok (issue .ksaRun)
  | .prgaXor m => if m ≤ 255 then .ok (issue (.prgaXor (BitVec.ofNat 8 m))) else .error (.operandRange m)
  | .errClear  => .ok (issue .errClear)
  | .wr reg v  => .ok (Pins.write (regAddr reg) v)
  | .rd reg    => .ok (Pins.read (regAddr reg))

/-- The host's elementary actions: one access, or one of the two that look at STATUS (R88). -/
inductive HostOp where
  | access (p : Pins)
  | wait
  | check
  deriving DecidableEq, Repr

/-- Statements and the pseudo-instructions of R88. -/
inductive Line where
  | stmt (c : Stmt)
  | wait
  | check
  | doStmt (c : Stmt)
  | loadKey (bs : List Nat)
  | xorByte (m : Nat)
  | dumpS
  deriving DecidableEq, Repr

/-- `DO c` of R88: `c; WAIT; CHECK`. R88 takes c to be one command statement and does not say what DO of WR or RD is: DESIGN
CHOICE, the same expansion with that access as `c`. Log entry 22. -/
def expandDo (c : Stmt) : Except AsmError (List HostOp) :=
  match assemble c with
  | .ok p => .ok [.access p, .wait, .check]
  | .error e => .error e

/-- `DO KEY_PUSH b` for each byte in order (R88). -/
def expandPushes : List Nat → Except AsmError (List HostOp)
  | [] => .ok []
  | b :: bs =>
    match expandDo (.keyPush b), expandPushes bs with
    | .ok x, .ok y => .ok (x ++ y)
    | .error e, _ => .error e
    | .ok _, .error e => .error e

/-- `DUMPS` of R88: 256 reads, SBOX[0] to SBOX[255]. -/
def dumpOps : List HostOp :=
  (List.range 256).map fun k => HostOp.access (Pins.read (regAddr (.sbox (BitVec.ofNat 8 k))))

/-- The expansions of R88. -/
def expand : Line → Except AsmError (List HostOp)
  | .stmt c =>
    match assemble c with
    | .ok p => .ok [.access p]
    | .error e => .error e
  | .wait => .ok [.wait]
  | .check => .ok [.check]
  | .doStmt c => expandDo c
  | .loadKey bs => if 1 ≤ bs.length ∧ bs.length ≤ 256 then expandPushes bs else .error (.keyLength bs.length)
  | .xorByte m =>
    match expandDo (.prgaXor m) with
    | .ok x => .ok (x ++ [.access (Pins.read (regAddr .out))])
    | .error e => .error e
  | .dumpS => .ok dumpOps

/-- The expansion of a whole host program. -/
def expandAll : List Line → Except AsmError (List HostOp)
  | [] => .ok []
  | l :: ls =>
    match expand l, expandAll ls with
    | .ok x, .ok y => .ok (x ++ y)
    | .error e, _ => .error e
    | .ok _, .error e => .error e

/-- How a host run ends. -/
inductive HostResult where
  /-- every action done: the machine's state and the values its plain reads returned, oldest first -/
  | done (s : State) (reads : List Word)
  /-- CHECK saw a nonzero error code: the host program fails (R88, R173) -/
  | checkFailed (code : BitVec 4) (s : State)
  /-- the edges allowed were used up -/
  | outOfEdges (s : State)
  /-- the machine stopped; it never does -/
  | stopped
  deriving DecidableEq, Repr

/-- A host that performs one action an edge, with no idle edge between; a read's value is `rdata` in the next cycle (R51).
WAIT repeats the read of STATUS until bit 0 is 0. Each action takes one of the `n` edges allowed. -/
def hostRun : Nat → List HostOp → State → List Word → HostResult
  | _, [], s, reads => .done s reads
  | 0, _ :: _, s, _ => .outOfEdges s
  | n + 1, op :: ops, s, reads =>
    match op with
    | .access p =>
      match step (present p s) with
      | .next t => hostRun n ops t (if p.req && !p.we then reads ++ [t.rdata] else reads)
      | _ => .stopped
    | .wait =>
      match step (present (Pins.read (regAddr .status)) s) with
      | .next t => hostRun n (if t.rdata.getLsbD 0 then op :: ops else ops) t reads
      | _ => .stopped
    | .check =>
      match step (present (Pins.read (regAddr .status)) s) with
      | .next t =>
        if t.rdata.extractLsb' 4 4 = 0#4 then hostRun n ops t reads
        else .checkFailed (t.rdata.extractLsb' 4 4) t
      | _ => .stopped

/-- The program of one encrypt call (R170): the host pushes at most the first 256 key bytes (R179). A decrypt call is the
same program with the ciphertext as the message (R171). Its result is `callOutputs` of its reads. -/
def callProgram (key msg : List Byte) : List Line :=
  [.stmt .errClear, .doStmt .init, .loadKey ((key.take 256).map BitVec.toNat), .doStmt .ksaRun] ++
    msg.map fun m => Line.xorByte m.toNat

/-- OUT[7:0] of a read of OUT, SBOX[k][7:0] of a read of SBOX[k] (R88, 20_memory.md R54, R55). -/
def lowByte (w : Word) : Byte := w.extractLsb' 0 8

/-- OUT[15:8] of a read of OUT: the keystream byte (R88, 20_memory.md R54). -/
def keystreamField (w : Word) : Byte := w.extractLsb' 8 8

/-- The result of a call from what its reads of OUT returned: the DOUT values, in order (R181). -/
def callOutputs (reads : List Word) : List Byte := reads.map lowByte

/-- The bytes DOUT holds after each of a call's PRGA_XOR commands, performed one after the other (R181). -/
def outputBytes : List Byte → State → List Byte
  | [], _ => []
  | m :: ms, s =>
    let t := perform (.prgaXor m) s
    t.dout :: outputBytes ms t

/-- The bytes KS holds after each of a call's PRGA_XOR commands: the keystream (R153). -/
def keystreamBytes : List Byte → State → List Byte
  | [], _ => []
  | m :: ms, s =>
    let t := perform (.prgaXor m) s
    t.ks :: keystreamBytes ms t

end Sys2Proof.Machine
end

