-- ==== Sys2Proof/Machine/Codec.lean ====
section
/-! DEFINITION. The host software around the block (44_host.md R174 to R183): the binary-string codec, the reduction of a chunk
to a byte, the call on strings and the programs that collect the traces. None of it is behaviour of the block (00_scope.md R4),
and `step` uses none of it. Log entries 21, 23, 24 and 25. -/

namespace Sys2Proof.Machine

/-- The host software's errors; the first two are raised before it writes any command (R177). -/
inductive HostError where
  /-- a character other than 0 and 1, an empty key, or a length that is no multiple of the chunk width -/
  | invalidInput
  /-- a chunk factor outside the supported range -/
  | configuration
  /-- a host that does so rejects a value of 2^W or more (R178, HOST_NARROW_RENDER); log entry 23 -/
  | narrowOutput
  deriving DecidableEq, Repr

/-- The default chunk factor n = 2, which gives the default width 8 (R174). -/
def defaultChunkFactor : Int := 2

/-- The largest chunk factor the host supports, no smaller than the default (R174, R177, S5). Log entry 21. -/
def chunkFactorMax : Nat := 2 + Config.chunkFactorsAboveDefault

/-- The chunk width W = 4n of a chunk factor n, by default 8 (R174). -/
def chunkWidth (n : Int := defaultChunkFactor) : Except HostError Nat :=
  if 1 ≤ n ∧ n ≤ (chunkFactorMax : Int) then .ok (4 * n.toNat) else .error .configuration

/-- A chunk as an unsigned number, its first character the most significant bit (R174). -/
def chunkValue (cs : List Char) : Nat := cs.foldl (fun v c => 2 * v + (if c = '1' then 1 else 0)) 0

/-- The first `n` groups of `w` members, left to right. -/
def chunks {α : Type} (w : Nat) : Nat → List α → List (List α)
  | 0, _ => []
  | n + 1, xs => xs.take w :: chunks w n (xs.drop w)

/-- R174, with the strict rejection of R176 and the character check of R177. -/
def decodeString (w : Nat) (cs : List Char) : Except HostError (List Nat) :=
  if cs.all (fun c => c == '0' || c == '1') && cs.length % w == 0 then .ok ((chunks w (cs.length / w) cs).map chunkValue)
  else .error .invalidInput

/-- A value below 2^w as a zero-padded string of `w` characters (R175); `renderValue` asks it of no other value. -/
def renderChunk (w v : Nat) : List Char :=
  (List.range w).map fun k => if v.testBit (w - 1 - k) then '1' else '0'

/-- A value at width `w` (R175). For 2^w or more the spec defines no rendering (N10, D33): the host's open choice, log
entry 23. -/
def renderValue (w v : Nat) : Except HostError (List Char) :=
  if v < 2 ^ w then .ok (renderChunk w v)
  else
    match Config.hostNarrowRender w v with
    | some cs => .ok cs
    | none => .error .narrowOutput

/-- The renderings one after the other, or the first error. -/
def joinRendered : List (Except HostError (List Char)) → Except HostError (List Char)
  | [] => .ok []
  | .ok x :: rest =>
    match joinRendered rest with
    | .ok y => .ok (x ++ y)
    | .error e => .error e
  | .error e :: _ => .error e

/-- R175. -/
def encodeString (w : Nat) (vs : List Nat) : Except HostError (List Char) := joinRendered (vs.map (renderValue w))

/-- The byte of a key or message chunk that enters the block, `v mod 256` (R178). -/
def chunkByte (v : Nat) : Byte := BitVec.ofNat 8 (v % 256)

/-- The output chunk `(m[W-1:8], DOUT)` of a message chunk (R178); 2^W or more, which only W = 4 can give, is rendered or
rejected as the host chooses. -/
def outputChunk (w m : Nat) (dout : Byte) : Except HostError (List Char) := renderValue w (m / 256 * 256 + dout.toNat)

/-- The output string of a call from its message chunks and its DOUT values, one each (R175, R178, R181; 43_prga.md R154). -/
def outputString (w : Nat) (ms : List Nat) (douts : List Byte) : Except HostError (List Char) :=
  joinRendered (List.zipWith (outputChunk w) ms douts)

/-- The program of a call on binary strings: key, message and chunk factor (R170, R174, R176 to R180). A decrypt call is the
same with the ciphertext as the message (R171). DESIGN CHOICE: an unsupported chunk factor is reported before an invalid string,
for which R177 gives no order; log entry 24. -/
def stringCall (key msg : List Char) (n : Int := defaultChunkFactor) : Except HostError (List Line) :=
  match chunkWidth n with
  | .error e => .error e
  | .ok w =>
    match decodeString w key, decodeString w msg with
    | .ok [], _ => .error .invalidInput
    | .ok ks, .ok ms => .ok (callProgram (ks.map chunkByte) (ms.map chunkByte))
    | .error e, _ => .error e
    | .ok _, .error e => .error e

/-! ### Traces (R182, R183): the program that collects each, and the trace its reads form -/

/-- The program that collects the KSA trace: `DUMPS` after the KSA_STEP of each round 0..255 (R182). -/
def ksaTraceProgram (key : List Byte) : List Line :=
  [.stmt .errClear, .doStmt .init, .loadKey ((key.take 256).map BitVec.toNat)] ++
    (List.replicate 256 [Line.doStmt .ksaStep, Line.dumpS]).flatten

/-- The KSA trace (R182): a pair of round index and 256-entry snapshot for each round, and the final permutation. -/
structure KsaTrace where
  entries : List (Nat × List Byte)
  summary : List Byte
  deriving DecidableEq, Repr

/-- The KSA trace of what the reads of `ksaTraceProgram` returned: the snapshot after the step that made R = i + 1 is the entry
of round i, the one after round 255 the summary (R182). None unless there are 256 reads for each of the 256 rounds. -/
def ksaTraceOf (reads : List Word) : Option KsaTrace :=
  if reads.length = 256 * 256 then
    let snapshots := (chunks 256 256 reads).map (·.map lowByte)
    some ⟨(List.range 256).zip snapshots, snapshots.getLastD []⟩
  else none

/-- The program that goes on to collect the PRGA trace: `XORBYTE`, a read of KSCOUNT for the round index, `DUMPS` (R183). -/
def prgaTraceProgram (msg : List Byte) : List Line :=
  msg.flatMap fun m => [Line.xorByte m.toNat, Line.stmt (.rd .kscount), Line.dumpS]

/-- The PRGA trace (R183): a pair of round index k and 256-entry snapshot for each output byte, and the full keystream. -/
structure PrgaTrace where
  entries : List (Nat × List Byte)
  summary : List Byte
  deriving DecidableEq, Repr

/-- The PRGA round index of a KSCOUNT read after the round, `KSCOUNT - 1` (R183, 10_state.md R30). DESIGN CHOICE: subtracted on 32
bits, which matters only after 2^32 rounds, where R30 no longer ties KSCOUNT to the round. Log entry 25. -/
def roundOfCount (kscount : Word) : Nat := (kscount - 1).toNat

/-- The entry of one output byte, from the reads of OUT, KSCOUNT and the 256 of `DUMPS` (R183). -/
def prgaEntryOf (reads : List Word) : Nat × List Byte := (roundOfCount (reads.getD 1 0), (reads.drop 2).map lowByte)

/-- The PRGA trace of what the reads of `prgaTraceProgram` returned for a message of `n` bytes; the summary is the KS values,
OUT[15:8], in order (R183). With n = 0 it has no entries. None unless there are 258 reads for each byte. -/
def prgaTraceOf (n : Nat) (reads : List Word) : Option PrgaTrace :=
  if reads.length = 258 * n then
    let groups := chunks 258 n reads
    some ⟨groups.map prgaEntryOf, groups.map fun g => keystreamField (g.headD 0)⟩
  else none

/-- The program of a call that collects both traces (R170, R182, R183). -/
def tracedCallProgram (key msg : List Byte) : List Line := ksaTraceProgram key ++ prgaTraceProgram msg

/-- Both traces of what the reads of `tracedCallProgram` returned for a message of `n` bytes. -/
def tracesOf (n : Nat) (reads : List Word) : Option (KsaTrace × PrgaTrace) :=
  match ksaTraceOf (reads.take (256 * 256)), prgaTraceOf n (reads.drop (256 * 256)) with
  | some k, some p => some (k, p)
  | _, _ => none

/-- The DOUT values of a traced call for a message of `n` bytes, from the reads of OUT (R181). -/
def tracedOutputs (n : Nat) (reads : List Word) : List Byte :=
  (chunks 258 n (reads.drop (256 * 256))).map fun g => lowByte (g.headD 0)

/-- The traces a host collects when it runs a traced call on the machine in at most `edges` edges; none when the program does
not assemble, a CHECK fails or the edges do not suffice. -/
def collectTraces (edges : Nat) (key msg : List Byte) (s : State) : Option (KsaTrace × PrgaTrace) :=
  match expandAll (tracedCallProgram key msg) with
  | .error _ => none
  | .ok ops =>
    match hostRun edges ops s [] with
    | .done _ reads => tracesOf msg.length reads
    | _ => none

end Sys2Proof.Machine
end

