-- ==== Sys2Proof/Machine/RefFsm.lean ====
section
/-! DEFINITION. The reference swap-and-index FSM (70_reset_and_hazards.md R244), beside the machine: it is not architectural
(10_state.md R36) and its timing is not normative, so `step` does not use it. It carries R241, R242 and R245. Log entry 14. -/

namespace Sys2Proof.Machine

/-- The micro-states of R244. -/
inductive Micro where
  | idle
  | initFill
  | keyWr
  | ksaA
  | ksaB
  | ksaC
  | prgaA
  | prgaB
  | prgaC
  | prgaD
  deriving DecidableEq, Repr

/-- The reference datapath: the registers, which it updates in place while BUSY = 1, and its temporaries (R244). -/
structure RefFsm where
  st    : State
  micro : Micro
  a     : Byte
  b     : Byte
  jn    : Byte
  t     : Byte
  cnt   : Byte
  kidx  : Byte
  deriving DecidableEq, Repr

/-- IDLE with a command accepted: the micro-state it selects (R244); the fill counter starts at 0. -/
def refStart (c : Instr) (m : RefFsm) : RefFsm :=
  match c with
  | .nop       => m
  | .init      => { m with micro := .initFill, cnt := 0 }
  | .keyPush _ => { m with micro := .keyWr }
  | .ksaStep   => { m with micro := .ksaA }
  | .ksaRun    => { m with micro := .ksaA }
  | .prgaXor _ => { m with micro := .prgaA }
  | .errClear  => m

/-- An edge with `rst` = 1: the registers as after R230, and the implicit INIT selected as if accepted at this edge (R231). -/
def refResetEdge (m : RefFsm) : RefFsm := refStart .init { m with st := resetEdge m.st, micro := .idle }

/-- The ARG byte of the command in flight. -/
def pendArg (s : State) : Byte :=
  match s.pend with
  | some (.keyPush b) => b
  | some (.prgaXor m) => m
  | _ => 0

/-- BUSY returns to 0 (R31) at the last cycle of a command. -/
def finish (s : State) : State := { s with busy := false, pend := none, left := 0 }

/-- The key index counter's advance (R241). -/
def kidxNext (kidx : Byte) (klen : BitVec 9) : Byte :=
  if kidx.toNat + 1 = klen.toNat then 0 else kidx + 1

/-- KSA_C of R244. -/
def refKsaC (m : RefFsm) : RefFsm :=
  let s := { m.st with sbox := setEntry m.st.sbox m.jn m.a, r := m.st.r + 1 }
  let k := kidxNext m.kidx m.st.klen
  if s.r = 256#9 then { m with st := finish (ksaFinish s), kidx := k, micro := .idle }
  else if s.pend = some .ksaRun then { m with st := s, kidx := k, micro := .ksaA }
  else { m with st := finish { s with phase := .ksa }, kidx := k, micro := .idle }

/-- One cycle of the reference FSM (R244). A read in a cycle sees the memory before that cycle's write. -/
def refCycle (m : RefFsm) : RefFsm :=
  match m.micro with
  | .idle => m
  | .initFill =>
    let s := { m.st with sbox := setEntry m.st.sbox m.cnt m.cnt }
    if m.cnt = 255#8 then
      { m with
        st := finish { s with klen := 0, r := 0, i := 0, j := 0, ks := 0, dout := 0, kscount := 0, phase := .ready }
        cnt := m.cnt + 1
        kidx := 0
        micro := .idle }
    else { m with st := s, cnt := m.cnt + 1 }
  | .keyWr =>
    { m with
      st := finish { m.st with key := setEntry m.st.key (pushIndex m.st.klen) (pendArg m.st), klen := m.st.klen + 1 }
      micro := .idle }
  | .ksaA =>
    let a := entry m.st.sbox (roundIndex m.st.r)
    let jn := sumMod256 [m.st.j, a, entry m.st.key m.kidx]
    { m with a := a, jn := jn, st := { m.st with j := jn }, micro := .ksaB }
  | .ksaB =>
    let b := entry m.st.sbox m.jn
    { m with b := b, st := { m.st with sbox := setEntry m.st.sbox (roundIndex m.st.r) b }, micro := .ksaC }
  | .ksaC => refKsaC m
  | .prgaA =>
    let i' := sumMod256 [m.st.i, 1#8]
    let a := entry m.st.sbox i'
    let jn := sumMod256 [m.st.j, a]
    { m with a := a, jn := jn, st := { m.st with i := i', j := jn }, micro := .prgaB }
  | .prgaB =>
    let b := entry m.st.sbox m.jn
    { m with b := b, st := { m.st with sbox := setEntry m.st.sbox m.st.i b }, micro := .prgaC }
  | .prgaC =>
    { m with st := { m.st with sbox := setEntry m.st.sbox m.jn m.a }, t := sumMod256 [m.a, m.b], micro := .prgaD }
  | .prgaD =>
    let ks := entry m.st.sbox m.t
    { m with
      st := finish { m.st with ks := ks, dout := xorByte (pendArg m.st) ks, kscount := m.st.kscount + 1 }
      micro := .idle }

/-- `n` cycles. -/
def refCycles : Nat → RefFsm → RefFsm
  | 0, m => m
  | n + 1, m => refCycles n (refCycle m)

/-- The reference latencies (R245), from the accepting edge to the completing edge; LAT_RESET_INIT is `refLatResetInit`. -/
def refLatency (c : Instr) (r : BitVec 9) : Nat :=
  match c with
  | .nop       => 0
  | .init      => 256
  | .keyPush _ => 1
  | .ksaStep   => 3
  | .ksaRun    => 3 * (256 - r.toNat)
  | .prgaXor _ => 4
  | .errClear  => 0

/-- The reference LAT_RESET_INIT (R245): the 256 edges from the first one with `rst` = 0, that one counted, which ends as many
edges after the last reset edge, where R231 has INIT accepted. Log entry 8. -/
def refLatResetInit : Nat := 256

end Sys2Proof.Machine
end

