-- ==== Sys2Proof/Safety.lean ====
section
/-! DEFINITION. The terms in which claims are made: what holds in every state of a run (10_state.md R22, R35), when two states
differ only in key bytes that cannot be read (R23), and runs of several edges. -/

namespace Sys2Proof.Machine

/-- Every value 0..255 occurs at exactly one index (R22). -/
def IsPermutation (t : Table) : Prop := Function.Bijective (entry t)

/-- The phase invariants of R35. -/
def PhaseFacts (s : State) : Prop :=
  match s.phase with
  | .ready => s.r = 0 ∧ s.i = 0 ∧ s.j = 0 ∧ s.ks = 0 ∧ s.dout = 0 ∧ s.kscount = 0 ∧ s.sbox = identityTable
  | .ksa => 1 ≤ s.r.toNat ∧ s.r.toNat ≤ 255 ∧ 1 ≤ s.klen.toNat ∧ s.i = 0
  | .keyed => s.r = 256 ∧ 1 ≤ s.klen.toNat

/-- What R22, R24 and R35 say of a state with BUSY = 0. -/
def Settled (s : State) : Prop := IsPermutation s.sbox ∧ s.klen.toNat ≤ 256 ∧ PhaseFacts s

/-- The commands that set BUSY: all but NOP and ERR_CLEAR (R31, R200). -/
def setsBusy : Instr → Bool
  | .nop       => false
  | .init      => true
  | .keyPush _ => true
  | .ksaStep   => true
  | .ksaRun    => true
  | .prgaXor _ => true
  | .errClear  => false

/-- The acceptance checks of R200 other than BUSY. -/
def Admitted (c : Instr) (s : State) : Prop :=
  setsBusy c = true ∧ phaseOk c s.phase = true ∧ (needsKey c = true → s.klen ≠ 0#9) ∧
    (appendsKey c = true → s.klen ≠ 256#9)

/-- The invariant of the machine: BUSY and PEND agree (R31); a state with BUSY = 0 is settled (R22, R35); what is in flight is
INIT or was admitted in a settled state; ERR is one of the codes produced (R201); a command in flight has edges left (R9). -/
def MachineInv (s : State) : Prop :=
  s.busy = s.pend.isSome ∧ (s.busy = false → Settled s) ∧
    (∀ c, s.pend = some c → c = .init ∨ (Settled s ∧ Admitted c s)) ∧ s.err.toNat ≤ 5 ∧ (s.busy = true → 1 ≤ s.left)

/-- The two states agree but for key bytes at index ≥ KLEN (R23, U6). -/
def SameButUnusedKey (s t : State) : Prop :=
  { s with key := t.key } = t ∧ ∀ k : Byte, k.toNat < s.klen.toNat → entry s.key k = entry t.key k

/-- `n` edges. -/
def runEdges : Nat → State → Host.Outcome State Fault Refusal
  | 0, s => .next s
  | n + 1, s =>
    match step s with
    | .next t => runEdges n t
    | .fault f => .fault f
    | .refused x => .refused x

/-- The registers of R20 that only a completion or reset writes, as one value: S, K, KLEN, R, I, J, KS, DOUT, KSCOUNT,
PHASE. -/
def engineRegs (s : State) : Table × Table × BitVec 9 × BitVec 9 × Byte × Byte × Byte × Byte × Word × Phase :=
  (s.sbox, s.key, s.klen, s.r, s.i, s.j, s.ks, s.dout, s.kscount, s.phase)

/-- The whole architectural state of R20, as one value. -/
def archState (s : State) :
    (Table × Table × BitVec 9 × BitVec 9 × Byte × Byte × Byte × Byte × Word × Phase) × Bool × Option Instr × BitVec 4 :=
  (engineRegs s, s.busy, s.pend, s.err)

end Sys2Proof.Machine
end

