-- ==== Sys2Proof/Certificates/Slice0/Obligations.lean ====
section
/-! DEFINITION. The statements for the provers. Each docstring names the rule of spec/ it formalises. -/

open Sys2Proof Sys2Proof.Machine

/-! ### Encoding (30_encoding.md) -/

/-- Every command is well-formed, its word decodes to it, and a word that decodes to a command is that command's word: no
bit of an encoding is dropped (R81, R83, R84). -/
def Obligations.CommandsRoundTrip : Prop :=
  (∀ i : Instr, i.fields.WellFormed ∧ decode (encode i) = .ok i) ∧
    ∀ (w : Word) (i : Instr), decode w = .ok i → encode i = w

/-- R83: the seven rows; a word encodes the command of a row exactly when `(w & mask) = match`; the rows do not overlap; the
operand is w[15:8]. -/
def Obligations.DecodeFollowsTheOpcodeRows : Prop :=
  opcodeRows =
      [⟨"NOP", 0x00000000#32, 0xFFFFFFFF#32⟩, ⟨"INIT", 0x00000001#32, 0xFFFFFFFF#32⟩,
       ⟨"KEY_PUSH", 0x00000002#32, 0xFFFF00FF#32⟩, ⟨"KSA_STEP", 0x00000003#32, 0xFFFFFFFF#32⟩,
       ⟨"KSA_RUN", 0x00000004#32, 0xFFFFFFFF#32⟩, ⟨"PRGA_XOR", 0x00000005#32, 0xFFFF00FF#32⟩,
       ⟨"ERR_CLEAR", 0x00000006#32, 0xFFFFFFFF#32⟩] ∧
    (∀ (w : Word) (row : OpcodeRow), row ∈ opcodeRows →
      ((w &&& row.mask = row.pattern) ↔ ∃ i, decode w = .ok i ∧ rowOf i = row)) ∧
    (∀ (w : Word) (x y : OpcodeRow), x ∈ opcodeRows → y ∈ opcodeRows → w &&& x.mask = x.pattern →
      w &&& y.mask = y.pattern → x = y) ∧
    (∀ (w : Word) (b : Byte), decode w = .ok (.keyPush b) ∨ decode w = .ok (.prgaXor b) → w.extractLsb' 8 8 = b)

/-- R85: "Of the 2^32 words exactly 5 + 2 × 256 = 517 are legal." -/
def Obligations.ExactlyFiveHundredSeventeenWordsAreLegal : Prop :=
  ∃ l : List Word, l.Nodup ∧ l.length = 517 ∧ ∀ w, w ∈ l ↔ ∃ i, decode w = .ok i

/-- R85: which words are illegal, and that each is rejected with ERR = ILLEGAL (1) and no other effect, in every state. -/
def Obligations.IllegalWordsAreRejected : Prop :=
  ∀ (w : Word) (s : State),
    ((∃ e, decode w = .error e) ↔
      w.extractLsb' 4 4 ≠ 0#4 ∨ w.extractLsb' 16 16 ≠ 0#16 ∨ 7 ≤ (w.extractLsb' 0 4).toNat ∨
        (w.extractLsb' 8 8 ≠ 0#8 ∧ w.extractLsb' 0 4 ≠ 2#4 ∧ w.extractLsb' 0 4 ≠ 5#4)) ∧
    ((∃ e, decode w = .error e) → cmdWrite w s = .next { s with err := 1 })

/-- R89's examples. -/
def Obligations.EncodingExamplesDecodeAsGiven : Prop :=
  encode (.keyPush 0x4B#8) = 0x00004B02#32 ∧ decode 0x00004B02#32 = .ok (.keyPush 0x4B#8) ∧
    encode (.prgaXor 0x61#8) = 0x00006105#32 ∧ decode 0x00006105#32 = .ok (.prgaXor 0x61#8) ∧
    (∃ e, decode 0x00000107#32 = .error e) ∧ (∃ e, decode 0x00000101#32 = .error e) ∧
    (∃ e, decode 0x00010001#32 = .error e)

/-! ### Steps -/

/-- Every edge and every command write answers a next state: nothing is a fault, a stop or a refusal (R205, R207). -/
def Obligations.EveryEdgeAndEveryCommandAnswers : Prop :=
  (∀ s : State, ∃ t, step s = .next t) ∧ ∀ (c : Instr) (s : State), ∃ t, exec c s = .next t

/-- A step at whose edge the host writes a word to CMD handles that word, on the state whose port has moved to the next cycle:
a legal word runs its command, an illegal one sets ERR = ILLEGAL (1) alone; the engine acts after it if a command was in flight
before (R51, R200, R203; that order is log entry 7). -/
def Obligations.StepRunsTheCommandWritten : Prop :=
  ∀ (s : State) (w : Word) (rest : List Pins), s.inputs = Pins.write 0#10 w :: rest → ∃ u t : State,
    u = { s with inputs := rest, rdata := Config.freeWord s.draws, draws := s.draws + 1 } ∧
    cmdWrite w u = .next t ∧ (∀ c, decode w = .ok c → exec c u = .next t) ∧
    ((∃ e, decode w = .error e) → t = { u with err := 1 }) ∧
    step s = .next (if s.busy then engineTick t else t)

/-- A word placed for the next edge is the very command the next step runs (R80; log entry 9). -/
def Obligations.PlacedWordRunsAtTheNextStep : Prop :=
  ∀ (s : State) (nbits w : Nat) (c : Instr), s.busy = false → decodeTableWord nbits w = some c →
    step (s.withFetchWord nbits w) =
      exec c { s with rdata := Config.freeWord s.draws, draws := s.draws + 1 }

/-- R200, with the codes of R201, the table of R202 and the order of R204. The countdown `left` that an acceptance starts is the
model's form of the latencies, no part of these rules (log entry 3). -/
def Obligations.CommandWriteFollowsTheOrderOfChecks : Prop :=
  ∀ (w : Word) (s : State), cmdWrite w s = .next
    (match decode w with
    | .error _ => { s with err := 1 }
    | .ok .nop => s
    | .ok .errClear => { s with err := 0 }
    | .ok c =>
      if s.busy = true then { s with err := 2 }
      else if phaseOk c s.phase = false then { s with err := 3 }
      else if needsKey c = true ∧ s.klen = 0 then { s with err := 4 }
      else if appendsKey c = true ∧ s.klen = 256 then { s with err := 5 }
      else { s with busy := true, pend := some c, left := latency c s.r })

/-- R202's table, as what a command does in each phase with BUSY = 0; NOP and ERR_CLEAR at any BUSY and in every phase; and
KEY_EMPTY only in phase READY. -/
def Obligations.PhaseAdmissionTable : Prop :=
  (∀ (s t : State) (c : Instr), s.busy = false → s.err = 0 → exec c s = .next t →
    (t.err = 3 ↔ ((∃ b, c = .keyPush b) ∧ s.phase ≠ .ready) ∨ ((c = .ksaStep ∨ c = .ksaRun) ∧ s.phase = .keyed) ∨
      ((∃ m, c = .prgaXor m) ∧ s.phase ≠ .keyed)) ∧
    (MachineInv s → t.err = 4 → s.phase = .ready ∧ s.klen = 0)) ∧
  ∀ s : State, exec .nop s = .next s ∧ exec .errClear s = .next { s with err := 0 }

/-- R203: a rejection sets ERR and does nothing else, and a command in flight continues and completes normally. -/
def Obligations.RejectionWritesOnlyErr : Prop :=
  (∀ (w : Word) (s : State) (e : Illegal), decode w = .error e → cmdWrite w s = .next { s with err := errValue .illegal }) ∧
    (∀ (w : Word) (s : State) (c : Instr) (code : ErrCode), decode w = .ok c → setsBusy c = true →
      rejectionOf c s = some code → cmdWrite w s = .next { s with err := errValue code }) ∧
    (∀ (s : State) (e : BitVec 4), complete { s with err := e } = { complete s with err := e } ∧
      engineTick { s with err := e } = { engineTick s with err := e })

/-- R32, R206: an edge changes ERR only by reset or ERR_CLEAR (to 0) or by a rejected command write, to the code of that
rejection, which is 1 to 5: ILLEGAL of a word that decodes to no command, or the verdict on a command that sets BUSY. -/
def Obligations.ErrChangesOnlyByRejectionClearOrReset : Prop :=
  ∀ s t : State, step s = .next t → t.err ≠ s.err →
    ((nextPins s).rst = true ∧ t.err = 0) ∨
      ((nextPins s).rst = false ∧ (nextPins s).req = true ∧ (nextPins s).we = true ∧ (nextPins s).waddr = 0#10 ∧
        ((decode (nextPins s).wdata = .ok .errClear ∧ t.err = 0) ∨
          (decode (nextPins s).wdata ≠ .ok .errClear ∧ 1 ≤ t.err.toNat ∧ t.err.toNat ≤ 5 ∧
            (((∃ e, decode (nextPins s).wdata = .error e) ∧ t.err = errValue .illegal) ∨
              ∃ c code, decode (nextPins s).wdata = .ok c ∧ setsBusy c = true ∧ rejectionOf c s = some code ∧
                t.err = errValue code))))

/-! ### The register window (20_memory.md) -/

/-- R57: a write to CMD is a command; a write anywhere else does exactly what an idle edge does. -/
def Obligations.WritesOutsideCmdAreIgnored : Prop :=
  (∀ (s : State) (v free : Word), hostAccess (Pins.write 0#10 v) free s = cmdWrite v s) ∧
    ∀ (s : State) (a : WordAddr) (v : Word) (rest : List Pins), a ≠ 0#10 →
      step { s with inputs := Pins.write a v :: rest } = step { s with inputs := Pins.idle :: rest }

/-- R54, R55 with BUSY = 0, as numbers: KEYLEN, INDEX = {R, J, I}, OUT = {KS, DOUT}, KSCOUNT and every SBOX[k]. -/
def Obligations.RegisterReadsWhenIdle : Prop :=
  ∀ (s : State) (free : Word), s.busy = false →
    (portRead free s 0x002#10).toNat = s.klen.toNat ∧
    (portRead free s 0x003#10).toNat = s.r.toNat * 65536 + s.j.toNat * 256 + s.i.toNat ∧
    (portRead free s 0x004#10).toNat = s.ks.toNat * 256 + s.dout.toNat ∧
    portRead free s 0x005#10 = s.kscount ∧
    ∀ (a : WordAddr) (k : Byte), a.toNat = 0x100 + k.toNat → (portRead free s a).toNat = (entry s.sbox k).toNat

/-- R53: the STATUS fields; PHASE shows its code when BUSY = 0 and can be any value when BUSY = 1. -/
def Obligations.StatusReadsItsFields : Prop :=
  ∀ (s : State) (free : Word),
    (portRead free s 0x001#10).getLsbD 0 = s.busy ∧ (portRead free s 0x001#10).getLsbD 1 = false ∧
    (portRead free s 0x001#10).extractLsb' 4 4 = s.err ∧ (portRead free s 0x001#10).toNat < 256 ∧
    (s.busy = false → ((portRead free s 0x001#10).extractLsb' 2 2).toNat =
      if s.phase = .ready then 0 else if s.phase = .ksa then 1 else 2) ∧
    (s.busy = true → ∀ x : BitVec 2, ∃ f : Word, (portRead f s 0x001#10).extractLsb' 2 2 = x)

/-- R59: while BUSY = 1 the field bits of KEYLEN, INDEX, OUT, KSCOUNT and SBOX[k] are the free value of that read, whatever
the registers hold; and each edge draws a new one (the form of the free values is log entry 5). -/
def Obligations.ReadsWhileBusyAreFree : Prop :=
  ∀ (s : State), s.busy = true →
    (∀ free : Word, (portRead free s 0x002#10).toNat = free.toNat % 2 ^ 9 ∧
      (portRead free s 0x003#10).toNat = free.toNat % 2 ^ 25 ∧ (portRead free s 0x004#10).toNat = free.toNat % 2 ^ 16 ∧
      portRead free s 0x005#10 = free ∧
      ∀ a : WordAddr, 0x100 ≤ a.toNat → a.toNat < 0x200 → (portRead free s a).toNat = free.toNat % 2 ^ 8) ∧
    ∀ (a : WordAddr) (rest : List Pins), s.inputs = Pins.read a :: rest →
      ∃ t, step s = .next t ∧ t.rdata = portRead (Config.freeWord s.draws) s a ∧ t.draws = s.draws + 1

/-- R58: CMD and unmapped offsets read 0, and so do the bits no field has, whether or not BUSY = 1. -/
def Obligations.UnassignedBitsReadZero : Prop :=
  ∀ (s : State) (free : Word),
    (∀ a : WordAddr, a = 0#10 ∨ (6 ≤ a.toNat ∧ a.toNat < 0x100) ∨ 0x200 ≤ a.toNat → portRead free s a = 0#32) ∧
    ((portRead free s 0x001#10).toNat < 2 ^ 8 ∧ (portRead free s 0x001#10).getLsbD 1 = false) ∧
    (portRead free s 0x002#10).toNat < 2 ^ 9 ∧ (portRead free s 0x003#10).toNat < 2 ^ 25 ∧
    (portRead free s 0x004#10).toNat < 2 ^ 16 ∧
    ∀ a : WordAddr, 0x100 ≤ a.toNat → a.toNat < 0x200 → (portRead free s a).toNat < 2 ^ 8

/-- R60: an edge with a read is an idle edge but for `rdata`; with BUSY = 0 two reads in a row return the same value. -/
def Obligations.ReadsHaveNoSideEffect : Prop :=
  ∀ (s : State) (a : WordAddr) (rest : List Pins),
    (∃ t u, step { s with inputs := Pins.read a :: rest } = .next t ∧
      step { s with inputs := Pins.idle :: rest } = .next u ∧ t = { u with rdata := t.rdata }) ∧
    (s.busy = false → ∃ t u, step { s with inputs := Pins.read a :: Pins.read a :: rest } = .next t ∧
      step t = .next u ∧ u.rdata = t.rdata)

/-- R51, R61, R204: at the edge at which a command completes, a read samples the state before the edge and a command that
sets BUSY is rejected with BUSY; the completion follows. The countdown is log entry 3, the order log entry 7. -/
def Obligations.AccessPrecedesCompletionAtOneEdge : Prop :=
  ∀ (s : State) (rest : List Pins), s.busy = true → s.left ≤ 1 →
    (∀ a : WordAddr, ∃ t, step { s with inputs := Pins.read a :: rest } = .next t ∧
      t.rdata = portRead (Config.freeWord s.draws) s a ∧ archState t = archState (complete s)) ∧
    (∀ c : Instr, setsBusy c = true → ∃ t, step { s with inputs := Pins.write 0#10 (encode c) :: rest } = .next t ∧
      t.err = 2 ∧ t.busy = false ∧ t.pend = none ∧ engineRegs t = engineRegs (complete s))

/-! ### The commands (40_control.md to 43_prga.md) -/

/-- R100: NOP is accepted in every state and has no effect; any other word with OPC = 0 is illegal. -/
def Obligations.NopDoesNothing : Prop :=
  decode 0x00000000#32 = .ok .nop ∧ (∀ s : State, exec .nop s = .next s) ∧
    ∀ (w : Word) (s : State), w.extractLsb' 0 4 = 0#4 → w ≠ 0#32 → cmdWrite w s = .next { s with err := 1 }

/-- R102: ERR_CLEAR clears ERR at the write in every state and nothing else; a command in flight continues; any other word
with OPC = 6 is illegal and sets ERR = 1. -/
def Obligations.ErrClearClearsErrAtTheWrite : Prop :=
  decode 0x00000006#32 = .ok .errClear ∧ (∀ s : State, exec .errClear s = .next { s with err := 0 }) ∧
    (∀ (w : Word) (s : State), w.extractLsb' 0 4 = 6#4 → w ≠ 6#32 → cmdWrite w s = .next { s with err := 1 }) ∧
    ∀ s : State, complete { s with err := 0 } = { complete s with err := 0 }

/-- R101: INIT is accepted exactly when BUSY = 0, in every phase; its completion is the fresh state, K and ERR kept. -/
def Obligations.InitStartsFromTheIdentity : Prop :=
  decode 0x00000001#32 = .ok .init ∧
    (∀ s : State, s.busy = false → ∃ (t : State) (u : Table),
      exec .init s = .next t ∧ t = { s with busy := true, pend := some .init, left := latency .init s.r } ∧
        (∀ k : Byte, entry u k = k) ∧
        complete t = { s with
          sbox := u, klen := 0, r := 0, i := 0, j := 0, ks := 0, dout := 0, kscount := 0, phase := .ready
          busy := false, pend := none, left := 0 }) ∧
    (∀ s : State, s.busy = true → exec .init s = .next { s with err := 2 }) ∧
    ∀ (w : Word) (s : State), w.extractLsb' 0 4 = 1#4 → w ≠ 1#32 → cmdWrite w s = .next { s with err := 1 }

/-- R120: KEY_PUSH b with BUSY = 0, PHASE = READY and KLEN < 256 is accepted and its completion stores b at K[KLEN] and adds
1 to KLEN; otherwise it is rejected with BUSY, STATE or KEY_FULL. -/
def Obligations.KeyPushAppendsOneByte : Prop :=
  ∀ (s : State) (b : Byte),
    encode (.keyPush b) = ((b.setWidth 32 <<< 8) ||| 2#32) ∧ decode ((b.setWidth 32 <<< 8) ||| 2#32) = .ok (.keyPush b) ∧
    (s.busy = false → s.phase = .ready → s.klen.toNat < 256 → ∃ (t : State) (u : Table),
      exec (.keyPush b) s = .next t ∧
        t = { s with busy := true, pend := some (.keyPush b), left := latency (.keyPush b) s.r } ∧
        (∀ k : Byte, entry u k = if k.toNat = s.klen.toNat then b else entry s.key k) ∧
        complete t = { s with key := u, klen := s.klen + 1, busy := false, pend := none, left := 0 } ∧
        (complete t).klen.toNat = s.klen.toNat + 1) ∧
    (s.busy = true → exec (.keyPush b) s = .next { s with err := 2 }) ∧
    (s.busy = false → s.phase ≠ .ready → exec (.keyPush b) s = .next { s with err := 3 }) ∧
    (s.busy = false → s.phase = .ready → s.klen = 256 → exec (.keyPush b) s = .next { s with err := 5 })

/-- R132: KSA_STEP with BUSY = 0 and PHASE = READY with KLEN ≥ 1, or PHASE = KSA, is accepted and its completion is one round,
with PHASE = KSA while rounds remain and KEYED after round 255; otherwise it is rejected with BUSY, STATE or KEY_EMPTY. The
premises 1 ≤ KLEN and R ≤ 255 hold by `MachineInv` in phases READY (R = 0) and KSA. -/
def Obligations.KsaStepRunsOneRound : Prop :=
  ∀ s : State,
    decode 0x00000003#32 = .ok .ksaStep ∧
    (s.busy = false → s.phase = .ready ∨ s.phase = .ksa → 1 ≤ s.klen.toNat → s.r.toNat ≤ 255 →
      ∃ t : State, exec .ksaStep s = .next t ∧
        t = { s with busy := true, pend := some .ksaStep, left := latency .ksaStep s.r } ∧
        complete t = { ksaRound s with
          phase := if s.r.toNat = 255 then .keyed else .ksa, busy := false, pend := none, left := 0 }) ∧
    (s.busy = true → exec .ksaStep s = .next { s with err := 2 }) ∧
    (s.busy = false → s.phase = .keyed → exec .ksaStep s = .next { s with err := 3 }) ∧
    (s.busy = false → s.phase = .ready → s.klen = 0 → exec .ksaStep s = .next { s with err := 4 })

/-- R133: KSA_RUN is accepted exactly as KSA_STEP, and its completion is all 256 - R remaining rounds, ending in PHASE =
KEYED with R = 256 and I = J = 0, KSCOUNT = 0. -/
def Obligations.KsaRunRunsAllRemainingRounds : Prop :=
  ∀ s : State,
    decode 0x00000004#32 = .ok .ksaRun ∧
    (s.busy = false → s.phase = .ready ∨ s.phase = .ksa → 1 ≤ s.klen.toNat → s.r.toNat ≤ 255 →
      ∃ t : State, exec .ksaRun s = .next t ∧
        t = { s with busy := true, pend := some .ksaRun, left := latency .ksaRun s.r } ∧
        complete t = { ksaRound^[256 - s.r.toNat] s with
          r := 256, phase := .keyed, i := 0, j := 0, kscount := 0, busy := false, pend := none, left := 0 } ∧
        (ksaRound^[256 - s.r.toNat] s).r = 256 ∧ (ksaRound^[256 - s.r.toNat] s).phase = .keyed) ∧
    (s.busy = true → exec .ksaRun s = .next { s with err := 2 }) ∧
    (s.busy = false → s.phase = .keyed → exec .ksaRun s = .next { s with err := 3 }) ∧
    (s.busy = false → s.phase = .ready → s.klen = 0 → exec .ksaRun s = .next { s with err := 4 })

/-- R152: PRGA_XOR m with BUSY = 0 and PHASE = KEYED is accepted, and its completion is one PRGA round with KS its byte,
DOUT = m xor KS and KSCOUNT + 1 mod 2^32; otherwise it is rejected with BUSY or STATE. -/
def Obligations.PrgaXorEmitsOneByte : Prop :=
  ∀ (s : State) (m : Byte),
    encode (.prgaXor m) = ((m.setWidth 32 <<< 8) ||| 5#32) ∧ decode ((m.setWidth 32 <<< 8) ||| 5#32) = .ok (.prgaXor m) ∧
    (s.busy = false → s.phase = .keyed → ∃ t : State,
      exec (.prgaXor m) s = .next t ∧
        t = { s with busy := true, pend := some (.prgaXor m), left := latency (.prgaXor m) s.r } ∧
        complete t = { prgaRound s with
          ks := keystreamByte (prgaRound s), dout := m ^^^ keystreamByte (prgaRound s), kscount := s.kscount + 1
          busy := false, pend := none, left := 0 } ∧
        (complete t).kscount.toNat = (s.kscount.toNat + 1) % 2 ^ 32) ∧
    (s.busy = true → exec (.prgaXor m) s = .next { s with err := 2 }) ∧
    (s.busy = false → s.phase ≠ .keyed → exec (.prgaXor m) s = .next { s with err := 3 })

/-- R130: one KSA round, with the sum on naturals reduced once, which equals reducing after each addition. -/
def Obligations.KsaRoundFollowsItsRule : Prop :=
  ∀ s : State, s.r.toNat ≤ 255 → 1 ≤ s.klen.toNat → ∃ (rr kk jn : Byte) (u : Table),
    rr.toNat = s.r.toNat ∧ kk.toNat = s.r.toNat % s.klen.toNat ∧
    jn.toNat = (s.j.toNat + (entry s.sbox rr).toNat + (entry s.key kk).toNat) % 256 ∧
    jn = s.j + entry s.sbox rr + entry s.key kk ∧
    entry u rr = entry s.sbox jn ∧ entry u jn = entry s.sbox rr ∧
    (∀ k, k ≠ rr → k ≠ jn → entry u k = entry s.sbox k) ∧ (s.r + 1).toNat = s.r.toNat + 1 ∧
    (s.r.toNat < 255 → ksaRound s = { s with sbox := u, j := jn, r := s.r + 1 }) ∧
    (s.r.toNat = 255 → ksaRound s = ksaFinish { s with sbox := u, j := jn, r := 256 })

/-- R131: the round that makes R = 256 sets PHASE = KEYED and I, J, KSCOUNT to 0. -/
def Obligations.LastKsaRoundFinishes : Prop :=
  ∀ s : State, s.r.toNat = 255 →
    ksaRound s = { s with sbox := (ksaRound s).sbox, r := 256, phase := .keyed, i := 0, j := 0, kscount := 0 }

/-- R134: 256 - R KSA_STEP commands, each completed, and one KSA_RUN reach the same state. -/
def Obligations.StepsAndRunReachTheSameState : Prop :=
  ∀ s : State, MachineInv s → s.busy = false → s.phase = .ready ∨ s.phase = .ksa → s.klen ≠ 0 →
    performAll (List.replicate (256 - s.r.toNat) .ksaStep) s = perform .ksaRun s

/-- R135: (a) each round keeps S a permutation; (b) the final S depends only on the key bytes K[0..KLEN-1] and not on how
the rounds were split between KSA_STEP and KSA_RUN; (c) exactly 256 rounds run per call whatever KLEN is. -/
def Obligations.ScheduledTableDependsOnlyOnTheKey : Prop :=
  (∀ s : State, IsPermutation s.sbox → IsPermutation (ksaRound s).sbox) ∧
  ∀ (s t : State) (n m : Nat), MachineInv s → MachineInv t → s.busy = false → t.busy = false → s.phase = .ready → t.phase = .ready →
    1 ≤ s.klen.toNat → t.klen = s.klen → (∀ k : Byte, k.toNat < s.klen.toNat → entry s.key k = entry t.key k) →
    n ≤ 255 → m ≤ 255 →
    (performAll (List.replicate n .ksaStep ++ [.ksaRun]) s).sbox =
        (performAll (List.replicate m .ksaStep ++ [.ksaRun]) t).sbox ∧
      (performAll (List.replicate n .ksaStep ++ [.ksaRun]) s).sbox = (ksaRound^[256] s).sbox ∧
      (performAll (List.replicate n .ksaStep ++ [.ksaRun]) s).r = 256

/-- R150: one PRGA round; both reads of t and of S[t] see the table as the swap left it. -/
def Obligations.PrgaRoundFollowsItsRule : Prop :=
  ∀ s : State, ∃ (i' j' t : Byte) (u : Table),
    i'.toNat = (s.i.toNat + 1) % 256 ∧ j'.toNat = (s.j.toNat + (entry s.sbox i').toNat) % 256 ∧
    entry u i' = entry s.sbox j' ∧ entry u j' = entry s.sbox i' ∧
    (∀ k, k ≠ i' → k ≠ j' → entry u k = entry s.sbox k) ∧
    prgaRound s = { s with i := i', j := j', sbox := u } ∧
    t.toNat = ((entry u i').toNat + (entry u j').toNat) % 256 ∧ keystreamByte (prgaRound s) = entry u t ∧
    (entry u i').toNat + (entry u j').toNat = (entry s.sbox i').toNat + (entry s.sbox j').toNat ∧
    (IsPermutation s.sbox → i' ≠ j' → t = i' ∨ t = j' → entry u t ≠ entry s.sbox t)

/-- R151: the XOR is bit by bit and self-inverse. -/
def Obligations.XorIsBitwiseAndSelfInverse : Prop :=
  ∀ m ks : Byte, xorByte (xorByte m ks) ks = m ∧
    ∀ n, n < 8 → (xorByte m ks).getLsbD n = (m.getLsbD n ^^ ks.getLsbD n)

/-- R153: the keystream depends only on the key, the outputs are the message XOR it, and the same sequence with the
outputs as the message gives the message back; the KSA run by KSA_RUN or by 256 KSA_STEP, from any two states with BUSY = 0. -/
def Obligations.DecryptingTheOutputsGivesTheMessage : Prop :=
  ∀ (s t : State) (key msg other : List Byte) (ksaS ksaT : List Instr),
    s.busy = false → t.busy = false → 1 ≤ key.length → key.length ≤ 256 →
    ksaS = [.ksaRun] ∨ ksaS = List.replicate 256 .ksaStep → ksaT = [.ksaRun] ∨ ksaT = List.replicate 256 .ksaStep →
    other.length = msg.length →
    keystreamBytes msg (performAll ([.init] ++ key.map .keyPush ++ ksaS) s) =
        keystreamBytes other (performAll ([.init] ++ key.map .keyPush ++ ksaT) t) ∧
      outputBytes msg (performAll ([.init] ++ key.map .keyPush ++ ksaS) s) =
        List.zipWith (· ^^^ ·) msg (keystreamBytes msg (performAll ([.init] ++ key.map .keyPush ++ ksaS) s)) ∧
      outputBytes (outputBytes msg (performAll ([.init] ++ key.map .keyPush ++ ksaS) s))
        (performAll ([.init] ++ key.map .keyPush ++ ksaT) t) = msg

/-- R154, R30, R33: L PRGA_XOR commands in phase KEYED give exactly L bytes, advance I by L mod 256 and KSCOUNT by L mod
2^32, stay in phase KEYED and keep S a permutation. -/
def Obligations.OneByteForEachPrgaXor : Prop :=
  ∀ (s : State) (msg : List Byte), s.busy = false → s.phase = .keyed → IsPermutation s.sbox →
    (outputBytes msg s).length = msg.length ∧ (keystreamBytes msg s).length = msg.length ∧
    (performAll (msg.map .prgaXor) s).i.toNat = (s.i.toNat + msg.length) % 256 ∧
    (performAll (msg.map .prgaXor) s).kscount.toNat = (s.kscount.toNat + msg.length) % 2 ^ 32 ∧
    (performAll (msg.map .prgaXor) s).phase = .keyed ∧ (performAll (msg.map .prgaXor) s).busy = false ∧
    IsPermutation (performAll (msg.map .prgaXor) s).sbox

/-! ### Completion, reset and the invariant -/

/-- R31, R9, R61: a command in flight completes at exactly the edge its latency ends on, whatever the host does short of
reset; until then BUSY = 1, PEND stays and no register changes; then its whole effect is there at once. The countdown `left` is the
model's form of the latencies (log entry 3). -/
def Obligations.AcceptedCommandCompletesWhenItsLatencyEnds : Prop :=
  ∀ (s : State) (n : Nat), s.busy = true → s.left = n + 1 → (∀ p ∈ s.inputs.take (n + 1), p.rst = false) →
    (∀ k ≤ n, ∃ t, runEdges k s = .next t ∧ t.busy = true ∧ t.pend = s.pend ∧ engineRegs t = engineRegs s) ∧
    ∃ t, runEdges (n + 1) s = .next t ∧ t.busy = false ∧ t.pend = none ∧ engineRegs t = engineRegs (complete s)

/-- R230, R232: an edge with `rst` = 1 sets BUSY = 1, PEND = INIT, ERR = 0, ignores the access, and what was there before
does not matter. What the other registers hold is log entry 6. -/
def Obligations.ResetAbandonsEverything : Prop :=
  ∀ (s t : State) (p q : Pins) (rest : List Pins), p.rst = true → q.rst = true → s.draws = t.draws →
    ∃ u, step { s with inputs := p :: rest } = .next u ∧ step { t with inputs := q :: rest } = .next u ∧
      u.busy = true ∧ u.pend = some .init ∧ u.err = 0 ∧ u.inputs = rest

/-- R231, R37: LAT_RESET_INIT edges after the last reset edge, with an idle host, the machine is in the reset state; K, which
the spec leaves unspecified, and `rdata` and the draw counter are not claimed. Log entries 2 and 8. -/
def Obligations.ResetThenInitReachesTheResetState : Prop :=
  ∀ s : State, s.inputs = [] → ∃ t, runEdges Config.latResetInit (resetEdge s) = .next t ∧
    { t with key := State.reset.key, rdata := State.reset.rdata, draws := State.reset.draws } = State.reset

/-- R37's table, as the registers and as what the host reads there (R53 to R55). That the machine starts after the reset INIT
is log entry 2; K is not claimed (the spec leaves it unspecified). -/
def Obligations.ResetStateIsAsTabled : Prop :=
  ((∀ k : Byte, entry State.reset.sbox k = k) ∧ State.reset.klen = 0 ∧ State.reset.r = 0 ∧ State.reset.i = 0 ∧
    State.reset.j = 0 ∧ State.reset.ks = 0 ∧ State.reset.dout = 0 ∧ State.reset.kscount = 0 ∧
    State.reset.phase = .ready ∧ State.reset.busy = false ∧ State.reset.pend = none ∧ State.reset.err = 0) ∧
    (∀ (free : Word) (a : WordAddr), a.toNat < 0x100 → portRead free State.reset a = 0#32) ∧
    ∀ (free : Word) (a : WordAddr) (k : Byte), a.toNat = 0x100 + k.toNat → (portRead free State.reset a).toNat = k.toNat

/-- The invariant holds at reset, whatever the host will present. -/
def Obligations.ResetMeetsTheInvariant : Prop :=
  ∀ inputs : List Pins, MachineInv { State.reset with inputs := inputs }

/-- Every edge keeps the invariant (R22, R31, R35, R201). -/
def Obligations.EveryEdgeKeepsTheInvariant : Prop :=
  ∀ s t : State, MachineInv s → step s = .next t → MachineInv t

/-- R22, R35: in every state with BUSY = 0 that a run reaches after an edge with `rst` = 1, from any state before it and under
any host, S is a permutation and the phase invariants hold. -/
def Obligations.IdleStatesAreSettled : Prop :=
  ∀ (s t : State) (n : Nat), runEdges n (resetEdge s) = .next t →
    t.busy = false →
    (∀ v : Byte, ∃! k : Byte, entry t.sbox k = v) ∧ t.klen.toNat ≤ 256 ∧
    (t.phase = .ready → t.r = 0 ∧ t.i = 0 ∧ t.j = 0 ∧ t.ks = 0 ∧ t.dout = 0 ∧ t.kscount = 0 ∧
      ∀ k : Byte, entry t.sbox k = k) ∧
    (t.phase = .ksa → 1 ≤ t.r.toNat ∧ t.r.toNat ≤ 255 ∧ 1 ≤ t.klen.toNat ∧ t.i = 0) ∧
    (t.phase = .keyed → t.r = 256 ∧ 1 ≤ t.klen.toNat)

/-! ### Frames and who writes what -/

/-- The write of any command leaves every register but BUSY, PEND and ERR, and `rdata` and the coming pins (R200, R203);
NOP changes nothing, ERR_CLEAR changes ERR alone, and an accepted command leaves ERR. -/
def Obligations.CommandWriteFrame : Prop :=
  ∀ (c : Instr) (s t : State), exec c s = .next t →
    engineRegs t = engineRegs s ∧ t.rdata = s.rdata ∧ t.inputs = s.inputs ∧ t.draws = s.draws ∧
    (c = .nop → t = s) ∧ (c = .errClear → t = { s with err := t.err }) ∧
    (t = { s with err := t.err } ∨ (t.err = s.err ∧ s.busy = false ∧ t.busy = true ∧ t.pend = some c))

/-- R34's table read as frames: what each command's completion leaves unchanged. NOP and ERR_CLEAR are never pending in a run
(log entry 17). -/
def Obligations.CompletionFrame : Prop :=
  ∀ (s : State) (c : Instr), s.pend = some c →
    (complete s).err = s.err ∧ (complete s).rdata = s.rdata ∧ (complete s).inputs = s.inputs ∧
    (complete s).draws = s.draws ∧ (complete s).busy = false ∧ (complete s).pend = none ∧
    match c with
    | .nop => engineRegs (complete s) = engineRegs s
    | .errClear => engineRegs (complete s) = engineRegs s
    | .init => (complete s).key = s.key
    | .keyPush _ =>
      engineRegs (complete s) = engineRegs { s with key := (complete s).key, klen := s.klen + 1 } ∧
        (s.klen.toNat < 256 → ∀ k : Byte, k.toNat ≠ s.klen.toNat → entry (complete s).key k = entry s.key k)
    | .ksaStep =>
      (complete s).key = s.key ∧ (complete s).klen = s.klen ∧ (complete s).ks = s.ks ∧ (complete s).dout = s.dout ∧
        (complete s).r = s.r + 1 ∧
        (s.r.toNat < 255 → (complete s).i = s.i ∧ (complete s).kscount = s.kscount ∧ (complete s).phase = .ksa)
    | .ksaRun =>
      (complete s).key = s.key ∧ (complete s).klen = s.klen ∧ (complete s).ks = s.ks ∧ (complete s).dout = s.dout
    | .prgaXor _ =>
      (complete s).key = s.key ∧ (complete s).klen = s.klen ∧ (complete s).r = s.r ∧ (complete s).phase = s.phase

/-- R29: "only INIT (or reset) leaves KEYED". -/
def Obligations.OnlyInitOrResetLeavesKeyed : Prop :=
  ∀ s t : State, MachineInv s → step s = .next t → s.phase = .keyed → t.phase ≠ .keyed →
    (nextPins s).rst = true ∨ (s.busy = true ∧ s.pend = some .init ∧ t.phase = .ready ∧ t.busy = false)

/-- R21, R23: S is written only by a completing INIT, KSA_STEP, KSA_RUN or PRGA_XOR and by reset, K only by a completing
KEY_PUSH and by reset; the host writes neither. -/
def Obligations.OnlyTheEngineWritesTheTables : Prop :=
  ∀ s t : State, step s = .next t → (nextPins s).rst = false →
    (t.sbox ≠ s.sbox → s.busy = true ∧ s.left ≤ 1 ∧
      (s.pend = some .init ∨ s.pend = some .ksaStep ∨ s.pend = some .ksaRun ∨ ∃ m, s.pend = some (.prgaXor m))) ∧
    (t.key ≠ s.key → s.busy = true ∧ s.left ≤ 1 ∧ ∃ b, s.pend = some (.keyPush b))

/-- R23, U6: key bytes at index ≥ KLEN are never observable: two machines that differ only there read the same and still
differ only there after every edge. -/
def Obligations.UnusedKeyBytesAreNeverObservable : Prop :=
  ∀ s s' t t' : State, MachineInv s → SameButUnusedKey s s' → step s = .next t → step s' = .next t' →
    SameButUnusedKey t t' ∧ t.rdata = t'.rdata

/-! ### The reference FSM and the host's side -/

/-- R242, R244, R245, R241: from IDLE with a command in flight the reference FSM reaches, after exactly the reference number
of cycles and not before, the state of the one-step completion; in a KSA its key index counter stays R mod KLEN. The FSM
stands beside the machine (log entry 14). -/
def Obligations.ReferenceFsmRefinesCompletion : Prop :=
  ∀ (m : RefFsm) (c : Instr), m.micro = .idle → m.st.busy = true → m.st.pend = some c → setsBusy c = true →
    (needsKey c = true → m.st.r.toNat ≤ 255 ∧ 1 ≤ m.st.klen.toNat ∧ m.st.klen.toNat ≤ 256 ∧
      m.kidx.toNat = m.st.r.toNat % m.st.klen.toNat) →
    (refCycles (refLatency c m.st.r) (refStart c m)).st = complete m.st ∧
    (refCycles (refLatency c m.st.r) (refStart c m)).micro = .idle ∧
    (∀ k < refLatency c m.st.r, (refCycles k (refStart c m)).st.busy = true) ∧
    (needsKey c = true ∨ c = .init →
      (refCycles (refLatency c m.st.r) (refStart c m)).kidx.toNat =
        (complete m.st).r.toNat % (complete m.st).klen.toNat)

/-- R56: MemRead and MemWrite exist only for 4 bytes at a multiple of 4 below 0x1000; any other form is refused. -/
def Obligations.OnlyAlignedWordAccessesExist : Prop :=
  ∀ (addr size : Nat) (v : Word),
    (size = 4 → addr % 4 = 0 → addr < 0x1000 → ∃ a : WordAddr, 4 * a.toNat = addr ∧
      memRead addr size = .ok (Pins.read a) ∧ memWrite addr size v = .ok (Pins.write a v)) ∧
    (size ≠ 4 ∨ addr % 4 ≠ 0 ∨ 0x1000 ≤ addr →
      memRead addr size = .error (.accessForm addr size) ∧ memWrite addr size v = .error (.accessForm addr size))

/-- R87: the access each statement stands for; an operand outside 0..255 is refused. -/
def Obligations.AssemblyStatementsAreTheirAccesses : Prop :=
  assemble .nop = .ok (Pins.write 0#10 0x00000000#32) ∧ assemble .init = .ok (Pins.write 0#10 0x00000001#32) ∧
    assemble .ksaStep = .ok (Pins.write 0#10 0x00000003#32) ∧ assemble .ksaRun = .ok (Pins.write 0#10 0x00000004#32) ∧
    assemble .errClear = .ok (Pins.write 0#10 0x00000006#32) ∧
    (∀ b : Byte, assemble (.keyPush b.toNat) = .ok (Pins.write 0#10 ((b.setWidth 32 <<< 8) ||| 0x2#32)) ∧
      assemble (.prgaXor b.toNat) = .ok (Pins.write 0#10 ((b.setWidth 32 <<< 8) ||| 0x5#32))) ∧
    (∀ n, 255 < n → assemble (.keyPush n) = .error (.operandRange n) ∧
      assemble (.prgaXor n) = .error (.operandRange n)) ∧
    (∀ (reg : Reg) (v : Word), ∃ a : WordAddr, 4 * a.toNat = regOffset reg ∧
      memWrite (regOffset reg) 4 v = .ok (Pins.write a v) ∧ assemble (.wr reg v) = .ok (Pins.write a v) ∧
      memRead (regOffset reg) 4 = .ok (Pins.read a) ∧ assemble (.rd reg) = .ok (Pins.read a)) ∧
    ∀ k : Byte, regOffset (.sbox k) = 0x400 + 4 * k.toNat

/-- R245's LAT_RESET_INIT, R231, R242: after an edge with `rst` = 1 the reference FSM runs the implicit INIT in 256 edges with
`rst` = 0 and not fewer, and reaches the state of the one-step completion, the reset state of R37 in every register the spec
gives a value, with the key index counter at 0. That R245's count includes the first such edge is log entry 8; the FSM stands
beside the machine (log entry 14). -/
def Obligations.ReferenceFsmInitialisesAfterReset : Prop :=
  refLatResetInit = 256 ∧ ∀ m : RefFsm,
    (refCycles refLatResetInit (refResetEdge m)).st = complete (resetEdge m.st) ∧
    (refCycles refLatResetInit (refResetEdge m)).micro = .idle ∧
    (refCycles refLatResetInit (refResetEdge m)).kidx = 0 ∧
    (∀ k < refLatResetInit, (refCycles k (refResetEdge m)).st.busy = true) ∧
    engineRegs (refCycles refLatResetInit (refResetEdge m)).st =
      engineRegs { State.reset with key := (resetEdge m.st).key } ∧
    (refCycles refLatResetInit (refResetEdge m)).st.busy = false ∧
    (refCycles refLatResetInit (refResetEdge m)).st.pend = none ∧
    (refCycles refLatResetInit (refResetEdge m)).st.err = 0

/-! ### Every edge, by its pins -/

/-- R51: what `rdata` carries after every edge, busy or not: the register read, as it was before the edge, after an edge with
`rst` = 0, `req` = 1 and `we` = 0; a free value after any other (its form is log entry 5). -/
def Obligations.EveryEdgeDrivesRdata : Prop :=
  (∀ s : State, ∃ t, step s = .next t ∧
    t.rdata = if (nextPins s).rst = false ∧ (nextPins s).req = true ∧ (nextPins s).we = false then
      portRead (Config.freeWord s.draws) s (nextPins s).waddr else Config.freeWord s.draws) ∧
  ∀ (s : State) (a : WordAddr) (rest : List Pins), s.inputs = Pins.read a :: rest →
    ∃ t, step s = .next t ∧ t.rdata = portRead (Config.freeWord s.draws) s a

/-- R31, R34, R51: at an edge with `rst` = 0, BUSY and PEND change only at a completion or by an accepted write of a command to
CMD, and a register changes only at the completion of a command that R34's table lets write it; so an edge with BUSY = 0 and no
accepted write, one with `req` = 0 and `we` = 1 among them, leaves them all. Which edge completes is log entries 3 and 7. -/
def Obligations.RegistersChangeOnlyByCompletionAcceptanceOrReset : Prop :=
  ∀ s t : State, step s = .next t → (nextPins s).rst = false →
    (t.busy ≠ s.busy ∨ t.pend ≠ s.pend →
      (s.busy = true ∧ s.left ≤ 1 ∧ t.busy = false ∧ t.pend = none) ∨
        (s.busy = false ∧ (nextPins s).req = true ∧ (nextPins s).we = true ∧ (nextPins s).waddr = 0#10 ∧
          ∃ c, decode (nextPins s).wdata = .ok c ∧ setsBusy c = true ∧ rejectionOf c s = none ∧
            t.busy = true ∧ t.pend = some c)) ∧
    (engineRegs t ≠ engineRegs s → s.busy = true ∧ s.left ≤ 1 ∧ t.busy = false ∧ engineRegs t = engineRegs (complete s)) ∧
    (t.klen ≠ s.klen → s.pend = some .init ∨ ∃ b, s.pend = some (.keyPush b)) ∧
    (t.r ≠ s.r ∨ t.phase ≠ s.phase → s.pend = some .init ∨ s.pend = some .ksaStep ∨ s.pend = some .ksaRun) ∧
    (t.i ≠ s.i ∨ t.j ≠ s.j ∨ t.kscount ≠ s.kscount →
      s.pend = some .init ∨ s.pend = some .ksaStep ∨ s.pend = some .ksaRun ∨ ∃ m, s.pend = some (.prgaXor m)) ∧
    (t.ks ≠ s.ks ∨ t.dout ≠ s.dout → s.pend = some .init ∨ ∃ m, s.pend = some (.prgaXor m))
end

