-- ==== Sys2Proof/Laws/Codec.lean ====
section
/-! SUPPORT. The host software's functions: the default chunk width, the groups of a list, the entries of a trace. -/

namespace Sys2Proof.Machine

/-- The default chunk width is 8, whatever range of chunk factors the host supports (R174). -/
@[simp] theorem chunkWidth_default : chunkWidth = .ok 8 := by
  have h : (1 : Int) ≤ 2 ∧ (2 : Int) ≤ (chunkFactorMax : Int) := ⟨by decide, by unfold chunkFactorMax; omega⟩
  exact if_pos h

/-- A value below 2^w has its zero-padded string, whatever the host does with the others (R175). -/
theorem renderValue_of_lt {w v : Nat} (h : v < 2 ^ w) : renderValue w v = .ok (renderChunk w v) := if_pos h

/-- Values below 2^w are encoded as their zero-padded strings, one after the other (R175). -/
theorem encodeString_of_lt {w : Nat} {vs : List Nat} (h : ∀ v ∈ vs, v < 2 ^ w) :
    encodeString w vs = .ok (vs.flatMap (renderChunk w)) := by
  unfold encodeString
  induction vs with
  | nil => rfl
  | cons v vs ih =>
    rw [List.map_cons, renderValue_of_lt (h v (by simp)), joinRendered, ih fun x hx => h x (by simp [hx]), List.flatMap_cons]

/-- With W ≥ 8 no output chunk is left to the host's choice (R178). -/
theorem outputChunk_of_wide {w m : Nat} (dout : Byte) (hw : 8 ≤ w) (hm : m < 2 ^ w) :
    outputChunk w m dout = .ok (renderChunk w (m / 256 * 256 + dout.toNat)) := by
  refine renderValue_of_lt ?_
  obtain ⟨n, rfl⟩ : ∃ n, w = 8 + n := ⟨w - 8, by omega⟩
  have hd := dout.isLt
  rw [Nat.pow_add] at hm ⊢
  omega

@[simp] theorem chunks_length {α : Type} (w n : Nat) (xs : List α) : (chunks w n xs).length = n := by
  induction n generalizing xs with
  | zero => rfl
  | succ n ih => simp [chunks, ih]

/-- Group `k` is the members from `w * k` on. -/
theorem chunks_getElem? {α : Type} (w n k : Nat) (xs : List α) (h : k < n) :
    (chunks w n xs)[k]? = some ((xs.drop (w * k)).take w) := by
  induction n generalizing xs k with
  | zero => omega
  | succ n ih =>
    cases k with
    | zero => simp [chunks]
    | succ k =>
      have hk : w + w * k = w * (k + 1) := by rw [Nat.mul_succ, Nat.add_comm]
      rw [chunks, List.getElem?_cons_succ, ih k _ (by omega), List.drop_drop, hk]

theorem chunks_getElem {α : Type} (w n k : Nat) (xs : List α) (h : k < (chunks w n xs).length) :
    (chunks w n xs)[k] = (xs.drop (w * k)).take w := by
  have hk := chunks_getElem? w n k xs (by simpa using h)
  rw [List.getElem?_eq_getElem h] at hk
  exact Option.some.inj hk

/-- The KSA trace's entry of round `i` is `i` and the low bytes of the `i`-th snapshot's reads; there are 256 (R182). -/
theorem ksaTraceOf_entry {reads : List Word} {t : KsaTrace} (h : ksaTraceOf reads = some t) :
    t.entries.length = 256 ∧ ∀ i, i < 256 →
      t.entries[i]? = some (i, ((reads.drop (256 * i)).take 256).map lowByte) := by
  unfold ksaTraceOf at h
  split at h
  · injection h with h
    subst h
    refine ⟨by simp, fun i hi => ?_⟩
    simp [chunks_getElem, hi]
  · cases h

/-- The summary of the KSA trace is the snapshot of round 255 (R182). -/
theorem ksaTraceOf_summary {reads : List Word} {t : KsaTrace} (h : ksaTraceOf reads = some t) :
    t.entries[255]? = some (255, t.summary) := by
  have he := (ksaTraceOf_entry h).2 255 (by decide)
  unfold ksaTraceOf at h
  split at h
  · injection h with h
    rw [he, ← h]
    simp [List.getLastD_eq_getLast?, List.getLast?_eq_getElem?, chunks_getElem]
  · cases h

/-- The PRGA trace has one entry and one keystream byte for each output byte, from that byte's 258 reads (R183). -/
theorem prgaTraceOf_entry {n : Nat} {reads : List Word} {t : PrgaTrace} (h : prgaTraceOf n reads = some t) :
    t.entries.length = n ∧ t.summary.length = n ∧ ∀ k, k < n →
      t.entries[k]? = some (prgaEntryOf ((reads.drop (258 * k)).take 258)) ∧
      t.summary[k]? = some (keystreamField (((reads.drop (258 * k)).take 258).headD 0)) := by
  unfold prgaTraceOf at h
  split at h
  · injection h with h
    subst h
    refine ⟨by simp, by simp, fun k hk => ?_⟩
    simp only [List.getElem?_map, chunks_getElem? 258 n k reads hk, Option.map_some]
    exact ⟨trivial, trivial⟩
  · cases h

end Sys2Proof.Machine
end

