-- ==== Sys2Proof/Laws/Decode.lean ====
section
/-! SUPPORT. The fields of a word and the word of given fields are inverse to each other, and what decoding says of the
fields (30_encoding.md R81, R84). -/

namespace Sys2Proof

/-- Concatenation as a number. -/
theorem toNat_append_add {m n : Nat} (x : BitVec m) (y : BitVec n) : (x ++ y).toNat = x.toNat * 2 ^ n + y.toNat := by
  rw [BitVec.toNat_append, ← Nat.shiftLeft_add_eq_or_of_lt y.isLt, Nat.shiftLeft_eq]

/-- The word of given fields as a number (R81). -/
theorem wordOf_toNat (f : Fields) :
    (wordOf f).toNat = f.rsv1.toNat * 65536 + f.arg.toNat * 256 + f.rsv0.toNat * 16 + f.opc.toNat := by
  have h : (wordOf f).toNat = (f.rsv1 ++ f.arg ++ f.rsv0).toNat * 2 ^ 4 + f.opc.toNat := toNat_append_add _ _
  rw [h, toNat_append_add, toNat_append_add]
  omega

/-- The fields of a word as numbers (R81). -/
theorem fieldsOf_toNat (w : Word) :
    (fieldsOf w).opc.toNat = w.toNat % 16 ∧ (fieldsOf w).rsv0.toNat = w.toNat / 16 % 16 ∧
    (fieldsOf w).arg.toNat = w.toNat / 256 % 256 ∧ (fieldsOf w).rsv1.toNat = w.toNat / 65536 := by
  have := w.isLt
  simp [fieldsOf, BitVec.extractLsb'_toNat, Nat.shiftRight_eq_div_pow]
  omega

@[simp] theorem fieldsOf_wordOf (f : Fields) : fieldsOf (wordOf f) = f := by
  obtain ⟨h1, h2, h3, h4⟩ := fieldsOf_toNat (wordOf f)
  rw [wordOf_toNat] at h1 h2 h3 h4
  have := f.opc.isLt; have := f.rsv0.isLt; have := f.arg.isLt; have := f.rsv1.isLt
  rcases f with ⟨a, b, c, d⟩
  rcases e : fieldsOf (wordOf ⟨a, b, c, d⟩) with ⟨a', b', c', d'⟩
  simp only [e] at *
  congr 1 <;> apply BitVec.eq_of_toNat_eq <;> omega

@[simp] theorem wordOf_fieldsOf (w : Word) : wordOf (fieldsOf w) = w := by
  obtain ⟨h1, h2, h3, h4⟩ := fieldsOf_toNat w
  apply BitVec.eq_of_toNat_eq
  rw [wordOf_toNat]
  omega

/-- A word with a command's fields decodes to it. -/
theorem decode_of_fields (w : Word) (i : Instr) (h : fieldsOf w = i.fields) : decode w = .ok i := by
  unfold decode; rw [h]; cases i <;> rfl

/-- A word that decodes to a command has its fields. -/
theorem decode_ok {w : Word} {i : Instr} (h : decode w = .ok i) : fieldsOf w = i.fields := by
  unfold decode at h
  rcases e : fieldsOf w with ⟨a, b, c, d⟩
  simp only [e] at h
  have ha : a.toNat < 16 := a.isLt
  by_cases hb : b = 0#4
  · by_cases hd : d = 0#16
    · subst hb; subst hd
      simp only [ne_eq, not_true_eq_false, if_false] at h
      have ea : a = BitVec.ofNat 4 a.toNat := by simp
      rw [ea]
      generalize a.toNat = n at *
      by_cases hc : c = 0#8
      · interval_cases n <;> simp [noOperand, hc] at h <;> subst h <;> simp [Instr.fields, hc]
      · interval_cases n <;> simp [noOperand, hc] at h <;> subst h <;> simp [Instr.fields]
    · simp [hb, hd] at h
  · simp [hb] at h

end Sys2Proof
end

