-- ==== Sys2Proof/Laws/Operands.lean ====
section
/-! SUPPORT. What the table operations and the index arithmetic do. -/

namespace Sys2Proof.Machine

theorem entry_setEntry (t : Table) (a v k : Byte) :
    entry (setEntry t a v) k = if k = a then v else entry t k := by
  unfold entry setEntry
  rw [Vector.getElem_set]
  by_cases h : k = a
  · simp [h]
  · rw [if_neg h, if_neg fun e => h (BitVec.eq_of_toNat_eq e.symm)]

@[simp] theorem entry_setEntry_self (t : Table) (a v : Byte) : entry (setEntry t a v) a = v := by
  simp [entry_setEntry]

/-- A swap exchanges two entries and leaves the others. -/
theorem entry_swapEntries (t : Table) (a b k : Byte) :
    entry (swapEntries t a b) k = if k = a then entry t b else if k = b then entry t a else entry t k := by
  unfold swapEntries
  simp only [entry_setEntry]
  by_cases hb : k = b
  · by_cases ha : k = a
    · simp_all
    · simp_all
  · simp [hb]

/-- Two tables with the same entries are equal. -/
theorem table_ext {t u : Table} (h : ∀ k, entry t k = entry u k) : t = u := by
  apply Vector.ext
  intro n hn
  have hk : (BitVec.ofNat 8 n).toNat = n := Nat.mod_eq_of_lt hn
  simpa only [entry, hk] using h (BitVec.ofNat 8 n)

/-- A swap of an index with itself changes nothing (R238). -/
@[simp] theorem swapEntries_self (t : Table) (a : Byte) : swapEntries t a a = t :=
  table_ext fun k => by rw [entry_swapEntries]; split <;> simp_all

@[simp] theorem entry_identityTable (k : Byte) : entry identityTable k = k := by
  simp [entry, identityTable]

/-- A swap looks the table up through the transposition of its two indices. -/
theorem entry_swapEntries_eq_comp (t : Table) (a b : Byte) :
    entry (swapEntries t a b) = entry t ∘ Equiv.swap a b := by
  funext k
  rw [entry_swapEntries, Function.comp, Equiv.swap_apply_def]
  split <;> [rfl; split <;> rfl]

theorem isPermutation_swapEntries {t : Table} (h : IsPermutation t) (a b : Byte) :
    IsPermutation (swapEntries t a b) := by
  unfold IsPermutation
  rw [entry_swapEntries_eq_comp]
  exact h.comp (Equiv.swap a b).bijective

theorem isPermutation_identityTable : IsPermutation identityTable := by
  have h : entry identityTable = id := funext entry_identityTable
  rw [IsPermutation, h]
  exact Function.bijective_id

theorem sumMod256_pair (x y : Byte) : sumMod256 [x, y] = x + y := by
  apply BitVec.eq_of_toNat_eq
  simp [sumMod256, BitVec.toNat_add]

theorem sumMod256_triple (x y z : Byte) : sumMod256 [x, y, z] = x + y + z := by
  apply BitVec.eq_of_toNat_eq
  simp [sumMod256, BitVec.toNat_add, Nat.add_assoc]

/-- The round index is R itself while R ≤ 255. -/
theorem roundIndex_toNat {r : BitVec 9} (h : r.toNat ≤ 255) : (roundIndex r).toNat = r.toNat := by
  simp [roundIndex]
  omega

/-- The key index is below KLEN whenever KLEN ≥ 1 (R69). -/
theorem keyIndex_toNat (rr : Byte) {klen : BitVec 9} (h : 1 ≤ klen.toNat) :
    (keyIndex rr klen).toNat = rr.toNat % klen.toNat ∧ (keyIndex rr klen).toNat < klen.toNat := by
  have h1 : rr.toNat % klen.toNat ≤ rr.toNat := Nat.mod_le _ _
  have h2 : rr.toNat % klen.toNat < klen.toNat := Nat.mod_lt _ h
  have h3 : rr.toNat < 256 := rr.isLt
  have h4 : (keyIndex rr klen).toNat = rr.toNat % klen.toNat := by
    simp only [keyIndex, BitVec.toNat_ofNat]
    exact Nat.mod_eq_of_lt (by omega)
  exact ⟨h4, by omega⟩

/-- The push index is KLEN itself while KLEN < 256. -/
theorem pushIndex_toNat {klen : BitVec 9} (h : klen.toNat < 256) : (pushIndex klen).toNat = klen.toNat := by
  simp [pushIndex]
  omega

end Sys2Proof.Machine
end

