-- ==== Sys2Proof/Laws/State.lean ====
section
/-! SUPPORT. One lemma per field and per update of the state: what the field holds after the update. -/

namespace Sys2Proof.Machine

/-! ### reject -/

@[simp] theorem reject_sbox (code : ErrCode) (s : State) : (reject code s).sbox = s.sbox := rfl
@[simp] theorem reject_key (code : ErrCode) (s : State) : (reject code s).key = s.key := rfl
@[simp] theorem reject_klen (code : ErrCode) (s : State) : (reject code s).klen = s.klen := rfl
@[simp] theorem reject_r (code : ErrCode) (s : State) : (reject code s).r = s.r := rfl
@[simp] theorem reject_i (code : ErrCode) (s : State) : (reject code s).i = s.i := rfl
@[simp] theorem reject_j (code : ErrCode) (s : State) : (reject code s).j = s.j := rfl
@[simp] theorem reject_ks (code : ErrCode) (s : State) : (reject code s).ks = s.ks := rfl
@[simp] theorem reject_dout (code : ErrCode) (s : State) : (reject code s).dout = s.dout := rfl
@[simp] theorem reject_kscount (code : ErrCode) (s : State) : (reject code s).kscount = s.kscount := rfl
@[simp] theorem reject_phase (code : ErrCode) (s : State) : (reject code s).phase = s.phase := rfl
@[simp] theorem reject_busy (code : ErrCode) (s : State) : (reject code s).busy = s.busy := rfl
@[simp] theorem reject_pend (code : ErrCode) (s : State) : (reject code s).pend = s.pend := rfl
@[simp] theorem reject_err (code : ErrCode) (s : State) : (reject code s).err = errValue code := rfl
@[simp] theorem reject_rdata (code : ErrCode) (s : State) : (reject code s).rdata = s.rdata := rfl
@[simp] theorem reject_left (code : ErrCode) (s : State) : (reject code s).left = s.left := rfl
@[simp] theorem reject_inputs (code : ErrCode) (s : State) : (reject code s).inputs = s.inputs := rfl
@[simp] theorem reject_draws (code : ErrCode) (s : State) : (reject code s).draws = s.draws := rfl

/-! ### clearErr -/

@[simp] theorem clearErr_sbox (s : State) : (clearErr s).sbox = s.sbox := rfl
@[simp] theorem clearErr_key (s : State) : (clearErr s).key = s.key := rfl
@[simp] theorem clearErr_klen (s : State) : (clearErr s).klen = s.klen := rfl
@[simp] theorem clearErr_r (s : State) : (clearErr s).r = s.r := rfl
@[simp] theorem clearErr_i (s : State) : (clearErr s).i = s.i := rfl
@[simp] theorem clearErr_j (s : State) : (clearErr s).j = s.j := rfl
@[simp] theorem clearErr_ks (s : State) : (clearErr s).ks = s.ks := rfl
@[simp] theorem clearErr_dout (s : State) : (clearErr s).dout = s.dout := rfl
@[simp] theorem clearErr_kscount (s : State) : (clearErr s).kscount = s.kscount := rfl
@[simp] theorem clearErr_phase (s : State) : (clearErr s).phase = s.phase := rfl
@[simp] theorem clearErr_busy (s : State) : (clearErr s).busy = s.busy := rfl
@[simp] theorem clearErr_pend (s : State) : (clearErr s).pend = s.pend := rfl
@[simp] theorem clearErr_err (s : State) : (clearErr s).err = 0 := rfl
@[simp] theorem clearErr_rdata (s : State) : (clearErr s).rdata = s.rdata := rfl
@[simp] theorem clearErr_left (s : State) : (clearErr s).left = s.left := rfl
@[simp] theorem clearErr_inputs (s : State) : (clearErr s).inputs = s.inputs := rfl
@[simp] theorem clearErr_draws (s : State) : (clearErr s).draws = s.draws := rfl

/-! ### accept -/

@[simp] theorem accept_sbox (c : Instr) (s : State) : (accept c s).sbox = s.sbox := rfl
@[simp] theorem accept_key (c : Instr) (s : State) : (accept c s).key = s.key := rfl
@[simp] theorem accept_klen (c : Instr) (s : State) : (accept c s).klen = s.klen := rfl
@[simp] theorem accept_r (c : Instr) (s : State) : (accept c s).r = s.r := rfl
@[simp] theorem accept_i (c : Instr) (s : State) : (accept c s).i = s.i := rfl
@[simp] theorem accept_j (c : Instr) (s : State) : (accept c s).j = s.j := rfl
@[simp] theorem accept_ks (c : Instr) (s : State) : (accept c s).ks = s.ks := rfl
@[simp] theorem accept_dout (c : Instr) (s : State) : (accept c s).dout = s.dout := rfl
@[simp] theorem accept_kscount (c : Instr) (s : State) : (accept c s).kscount = s.kscount := rfl
@[simp] theorem accept_phase (c : Instr) (s : State) : (accept c s).phase = s.phase := rfl
@[simp] theorem accept_busy (c : Instr) (s : State) : (accept c s).busy = true := rfl
@[simp] theorem accept_pend (c : Instr) (s : State) : (accept c s).pend = some c := rfl
@[simp] theorem accept_err (c : Instr) (s : State) : (accept c s).err = s.err := rfl
@[simp] theorem accept_rdata (c : Instr) (s : State) : (accept c s).rdata = s.rdata := rfl
@[simp] theorem accept_left (c : Instr) (s : State) : (accept c s).left = latency c s.r := rfl
@[simp] theorem accept_inputs (c : Instr) (s : State) : (accept c s).inputs = s.inputs := rfl
@[simp] theorem accept_draws (c : Instr) (s : State) : (accept c s).draws = s.draws := rfl

/-! ### initEffect -/

@[simp] theorem initEffect_sbox (s : State) : (initEffect s).sbox = identityTable := rfl
@[simp] theorem initEffect_key (s : State) : (initEffect s).key = s.key := rfl
@[simp] theorem initEffect_klen (s : State) : (initEffect s).klen = 0 := rfl
@[simp] theorem initEffect_r (s : State) : (initEffect s).r = 0 := rfl
@[simp] theorem initEffect_i (s : State) : (initEffect s).i = 0 := rfl
@[simp] theorem initEffect_j (s : State) : (initEffect s).j = 0 := rfl
@[simp] theorem initEffect_ks (s : State) : (initEffect s).ks = 0 := rfl
@[simp] theorem initEffect_dout (s : State) : (initEffect s).dout = 0 := rfl
@[simp] theorem initEffect_kscount (s : State) : (initEffect s).kscount = 0 := rfl
@[simp] theorem initEffect_phase (s : State) : (initEffect s).phase = .ready := rfl
@[simp] theorem initEffect_busy (s : State) : (initEffect s).busy = s.busy := rfl
@[simp] theorem initEffect_pend (s : State) : (initEffect s).pend = s.pend := rfl
@[simp] theorem initEffect_err (s : State) : (initEffect s).err = s.err := rfl
@[simp] theorem initEffect_rdata (s : State) : (initEffect s).rdata = s.rdata := rfl
@[simp] theorem initEffect_left (s : State) : (initEffect s).left = s.left := rfl
@[simp] theorem initEffect_inputs (s : State) : (initEffect s).inputs = s.inputs := rfl
@[simp] theorem initEffect_draws (s : State) : (initEffect s).draws = s.draws := rfl

/-! ### keyPushEffect -/

@[simp] theorem keyPushEffect_sbox (b : Byte) (s : State) : (keyPushEffect b s).sbox = s.sbox := rfl
@[simp] theorem keyPushEffect_key (b : Byte) (s : State) : (keyPushEffect b s).key = setEntry s.key (pushIndex s.klen) b := rfl
@[simp] theorem keyPushEffect_klen (b : Byte) (s : State) : (keyPushEffect b s).klen = s.klen + 1 := rfl
@[simp] theorem keyPushEffect_r (b : Byte) (s : State) : (keyPushEffect b s).r = s.r := rfl
@[simp] theorem keyPushEffect_i (b : Byte) (s : State) : (keyPushEffect b s).i = s.i := rfl
@[simp] theorem keyPushEffect_j (b : Byte) (s : State) : (keyPushEffect b s).j = s.j := rfl
@[simp] theorem keyPushEffect_ks (b : Byte) (s : State) : (keyPushEffect b s).ks = s.ks := rfl
@[simp] theorem keyPushEffect_dout (b : Byte) (s : State) : (keyPushEffect b s).dout = s.dout := rfl
@[simp] theorem keyPushEffect_kscount (b : Byte) (s : State) : (keyPushEffect b s).kscount = s.kscount := rfl
@[simp] theorem keyPushEffect_phase (b : Byte) (s : State) : (keyPushEffect b s).phase = s.phase := rfl
@[simp] theorem keyPushEffect_busy (b : Byte) (s : State) : (keyPushEffect b s).busy = s.busy := rfl
@[simp] theorem keyPushEffect_pend (b : Byte) (s : State) : (keyPushEffect b s).pend = s.pend := rfl
@[simp] theorem keyPushEffect_err (b : Byte) (s : State) : (keyPushEffect b s).err = s.err := rfl
@[simp] theorem keyPushEffect_rdata (b : Byte) (s : State) : (keyPushEffect b s).rdata = s.rdata := rfl
@[simp] theorem keyPushEffect_left (b : Byte) (s : State) : (keyPushEffect b s).left = s.left := rfl
@[simp] theorem keyPushEffect_inputs (b : Byte) (s : State) : (keyPushEffect b s).inputs = s.inputs := rfl
@[simp] theorem keyPushEffect_draws (b : Byte) (s : State) : (keyPushEffect b s).draws = s.draws := rfl

/-! ### ksaFinish -/

@[simp] theorem ksaFinish_sbox (s : State) : (ksaFinish s).sbox = s.sbox := rfl
@[simp] theorem ksaFinish_key (s : State) : (ksaFinish s).key = s.key := rfl
@[simp] theorem ksaFinish_klen (s : State) : (ksaFinish s).klen = s.klen := rfl
@[simp] theorem ksaFinish_r (s : State) : (ksaFinish s).r = s.r := rfl
@[simp] theorem ksaFinish_i (s : State) : (ksaFinish s).i = 0 := rfl
@[simp] theorem ksaFinish_j (s : State) : (ksaFinish s).j = 0 := rfl
@[simp] theorem ksaFinish_ks (s : State) : (ksaFinish s).ks = s.ks := rfl
@[simp] theorem ksaFinish_dout (s : State) : (ksaFinish s).dout = s.dout := rfl
@[simp] theorem ksaFinish_kscount (s : State) : (ksaFinish s).kscount = 0 := rfl
@[simp] theorem ksaFinish_phase (s : State) : (ksaFinish s).phase = .keyed := rfl
@[simp] theorem ksaFinish_busy (s : State) : (ksaFinish s).busy = s.busy := rfl
@[simp] theorem ksaFinish_pend (s : State) : (ksaFinish s).pend = s.pend := rfl
@[simp] theorem ksaFinish_err (s : State) : (ksaFinish s).err = s.err := rfl
@[simp] theorem ksaFinish_rdata (s : State) : (ksaFinish s).rdata = s.rdata := rfl
@[simp] theorem ksaFinish_left (s : State) : (ksaFinish s).left = s.left := rfl
@[simp] theorem ksaFinish_inputs (s : State) : (ksaFinish s).inputs = s.inputs := rfl
@[simp] theorem ksaFinish_draws (s : State) : (ksaFinish s).draws = s.draws := rfl

/-! ### prgaRound -/

@[simp] theorem prgaRound_sbox (s : State) : (prgaRound s).sbox = swapEntries s.sbox (sumMod256 [s.i, 1#8]) (sumMod256 [s.j, entry s.sbox (sumMod256 [s.i, 1#8])]) := rfl
@[simp] theorem prgaRound_key (s : State) : (prgaRound s).key = s.key := rfl
@[simp] theorem prgaRound_klen (s : State) : (prgaRound s).klen = s.klen := rfl
@[simp] theorem prgaRound_r (s : State) : (prgaRound s).r = s.r := rfl
@[simp] theorem prgaRound_i (s : State) : (prgaRound s).i = sumMod256 [s.i, 1#8] := rfl
@[simp] theorem prgaRound_j (s : State) : (prgaRound s).j = sumMod256 [s.j, entry s.sbox (sumMod256 [s.i, 1#8])] := rfl
@[simp] theorem prgaRound_ks (s : State) : (prgaRound s).ks = s.ks := rfl
@[simp] theorem prgaRound_dout (s : State) : (prgaRound s).dout = s.dout := rfl
@[simp] theorem prgaRound_kscount (s : State) : (prgaRound s).kscount = s.kscount := rfl
@[simp] theorem prgaRound_phase (s : State) : (prgaRound s).phase = s.phase := rfl
@[simp] theorem prgaRound_busy (s : State) : (prgaRound s).busy = s.busy := rfl
@[simp] theorem prgaRound_pend (s : State) : (prgaRound s).pend = s.pend := rfl
@[simp] theorem prgaRound_err (s : State) : (prgaRound s).err = s.err := rfl
@[simp] theorem prgaRound_rdata (s : State) : (prgaRound s).rdata = s.rdata := rfl
@[simp] theorem prgaRound_left (s : State) : (prgaRound s).left = s.left := rfl
@[simp] theorem prgaRound_inputs (s : State) : (prgaRound s).inputs = s.inputs := rfl
@[simp] theorem prgaRound_draws (s : State) : (prgaRound s).draws = s.draws := rfl

/-! ### prgaXorEffect -/

@[simp] theorem prgaXorEffect_sbox (m : Byte) (s : State) : (prgaXorEffect m s).sbox = (prgaRound s).sbox := rfl
@[simp] theorem prgaXorEffect_key (m : Byte) (s : State) : (prgaXorEffect m s).key = s.key := rfl
@[simp] theorem prgaXorEffect_klen (m : Byte) (s : State) : (prgaXorEffect m s).klen = s.klen := rfl
@[simp] theorem prgaXorEffect_r (m : Byte) (s : State) : (prgaXorEffect m s).r = s.r := rfl
@[simp] theorem prgaXorEffect_i (m : Byte) (s : State) : (prgaXorEffect m s).i = (prgaRound s).i := rfl
@[simp] theorem prgaXorEffect_j (m : Byte) (s : State) : (prgaXorEffect m s).j = (prgaRound s).j := rfl
@[simp] theorem prgaXorEffect_ks (m : Byte) (s : State) : (prgaXorEffect m s).ks = keystreamByte (prgaRound s) := rfl
@[simp] theorem prgaXorEffect_dout (m : Byte) (s : State) : (prgaXorEffect m s).dout = xorByte m (keystreamByte (prgaRound s)) := rfl
@[simp] theorem prgaXorEffect_kscount (m : Byte) (s : State) : (prgaXorEffect m s).kscount = s.kscount + 1 := rfl
@[simp] theorem prgaXorEffect_phase (m : Byte) (s : State) : (prgaXorEffect m s).phase = s.phase := rfl
@[simp] theorem prgaXorEffect_busy (m : Byte) (s : State) : (prgaXorEffect m s).busy = s.busy := rfl
@[simp] theorem prgaXorEffect_pend (m : Byte) (s : State) : (prgaXorEffect m s).pend = s.pend := rfl
@[simp] theorem prgaXorEffect_err (m : Byte) (s : State) : (prgaXorEffect m s).err = s.err := rfl
@[simp] theorem prgaXorEffect_rdata (m : Byte) (s : State) : (prgaXorEffect m s).rdata = s.rdata := rfl
@[simp] theorem prgaXorEffect_left (m : Byte) (s : State) : (prgaXorEffect m s).left = s.left := rfl
@[simp] theorem prgaXorEffect_inputs (m : Byte) (s : State) : (prgaXorEffect m s).inputs = s.inputs := rfl
@[simp] theorem prgaXorEffect_draws (m : Byte) (s : State) : (prgaXorEffect m s).draws = s.draws := rfl

/-! ### complete -/

@[simp] theorem complete_sbox (s : State) : (complete s).sbox = (pendEffect s).sbox := rfl
@[simp] theorem complete_key (s : State) : (complete s).key = (pendEffect s).key := rfl
@[simp] theorem complete_klen (s : State) : (complete s).klen = (pendEffect s).klen := rfl
@[simp] theorem complete_r (s : State) : (complete s).r = (pendEffect s).r := rfl
@[simp] theorem complete_i (s : State) : (complete s).i = (pendEffect s).i := rfl
@[simp] theorem complete_j (s : State) : (complete s).j = (pendEffect s).j := rfl
@[simp] theorem complete_ks (s : State) : (complete s).ks = (pendEffect s).ks := rfl
@[simp] theorem complete_dout (s : State) : (complete s).dout = (pendEffect s).dout := rfl
@[simp] theorem complete_kscount (s : State) : (complete s).kscount = (pendEffect s).kscount := rfl
@[simp] theorem complete_phase (s : State) : (complete s).phase = (pendEffect s).phase := rfl
@[simp] theorem complete_busy (s : State) : (complete s).busy = false := rfl
@[simp] theorem complete_pend (s : State) : (complete s).pend = none := rfl
@[simp] theorem complete_err (s : State) : (complete s).err = (pendEffect s).err := rfl
@[simp] theorem complete_rdata (s : State) : (complete s).rdata = (pendEffect s).rdata := rfl
@[simp] theorem complete_left (s : State) : (complete s).left = 0 := rfl
@[simp] theorem complete_inputs (s : State) : (complete s).inputs = (pendEffect s).inputs := rfl
@[simp] theorem complete_draws (s : State) : (complete s).draws = (pendEffect s).draws := rfl

/-! ### nextCycle -/

@[simp] theorem nextCycle_sbox (s : State) : (nextCycle s).sbox = s.sbox := rfl
@[simp] theorem nextCycle_key (s : State) : (nextCycle s).key = s.key := rfl
@[simp] theorem nextCycle_klen (s : State) : (nextCycle s).klen = s.klen := rfl
@[simp] theorem nextCycle_r (s : State) : (nextCycle s).r = s.r := rfl
@[simp] theorem nextCycle_i (s : State) : (nextCycle s).i = s.i := rfl
@[simp] theorem nextCycle_j (s : State) : (nextCycle s).j = s.j := rfl
@[simp] theorem nextCycle_ks (s : State) : (nextCycle s).ks = s.ks := rfl
@[simp] theorem nextCycle_dout (s : State) : (nextCycle s).dout = s.dout := rfl
@[simp] theorem nextCycle_kscount (s : State) : (nextCycle s).kscount = s.kscount := rfl
@[simp] theorem nextCycle_phase (s : State) : (nextCycle s).phase = s.phase := rfl
@[simp] theorem nextCycle_busy (s : State) : (nextCycle s).busy = s.busy := rfl
@[simp] theorem nextCycle_pend (s : State) : (nextCycle s).pend = s.pend := rfl
@[simp] theorem nextCycle_err (s : State) : (nextCycle s).err = s.err := rfl
@[simp] theorem nextCycle_rdata (s : State) : (nextCycle s).rdata = Config.freeWord s.draws := rfl
@[simp] theorem nextCycle_left (s : State) : (nextCycle s).left = s.left := rfl
@[simp] theorem nextCycle_inputs (s : State) : (nextCycle s).inputs = s.inputs := rfl
@[simp] theorem nextCycle_draws (s : State) : (nextCycle s).draws = s.draws + 1 := rfl

/-! ### dropPins -/

@[simp] theorem dropPins_sbox (s : State) : (dropPins s).sbox = s.sbox := rfl
@[simp] theorem dropPins_key (s : State) : (dropPins s).key = s.key := rfl
@[simp] theorem dropPins_klen (s : State) : (dropPins s).klen = s.klen := rfl
@[simp] theorem dropPins_r (s : State) : (dropPins s).r = s.r := rfl
@[simp] theorem dropPins_i (s : State) : (dropPins s).i = s.i := rfl
@[simp] theorem dropPins_j (s : State) : (dropPins s).j = s.j := rfl
@[simp] theorem dropPins_ks (s : State) : (dropPins s).ks = s.ks := rfl
@[simp] theorem dropPins_dout (s : State) : (dropPins s).dout = s.dout := rfl
@[simp] theorem dropPins_kscount (s : State) : (dropPins s).kscount = s.kscount := rfl
@[simp] theorem dropPins_phase (s : State) : (dropPins s).phase = s.phase := rfl
@[simp] theorem dropPins_busy (s : State) : (dropPins s).busy = s.busy := rfl
@[simp] theorem dropPins_pend (s : State) : (dropPins s).pend = s.pend := rfl
@[simp] theorem dropPins_err (s : State) : (dropPins s).err = s.err := rfl
@[simp] theorem dropPins_rdata (s : State) : (dropPins s).rdata = s.rdata := rfl
@[simp] theorem dropPins_left (s : State) : (dropPins s).left = s.left := rfl
@[simp] theorem dropPins_inputs (s : State) : (dropPins s).inputs = s.inputs.tail := rfl
@[simp] theorem dropPins_draws (s : State) : (dropPins s).draws = s.draws := rfl

/-! ### present -/

@[simp] theorem present_sbox (p : Pins) (s : State) : (present p s).sbox = s.sbox := rfl
@[simp] theorem present_key (p : Pins) (s : State) : (present p s).key = s.key := rfl
@[simp] theorem present_klen (p : Pins) (s : State) : (present p s).klen = s.klen := rfl
@[simp] theorem present_r (p : Pins) (s : State) : (present p s).r = s.r := rfl
@[simp] theorem present_i (p : Pins) (s : State) : (present p s).i = s.i := rfl
@[simp] theorem present_j (p : Pins) (s : State) : (present p s).j = s.j := rfl
@[simp] theorem present_ks (p : Pins) (s : State) : (present p s).ks = s.ks := rfl
@[simp] theorem present_dout (p : Pins) (s : State) : (present p s).dout = s.dout := rfl
@[simp] theorem present_kscount (p : Pins) (s : State) : (present p s).kscount = s.kscount := rfl
@[simp] theorem present_phase (p : Pins) (s : State) : (present p s).phase = s.phase := rfl
@[simp] theorem present_busy (p : Pins) (s : State) : (present p s).busy = s.busy := rfl
@[simp] theorem present_pend (p : Pins) (s : State) : (present p s).pend = s.pend := rfl
@[simp] theorem present_err (p : Pins) (s : State) : (present p s).err = s.err := rfl
@[simp] theorem present_rdata (p : Pins) (s : State) : (present p s).rdata = s.rdata := rfl
@[simp] theorem present_left (p : Pins) (s : State) : (present p s).left = s.left := rfl
@[simp] theorem present_inputs (p : Pins) (s : State) : (present p s).inputs = p :: s.inputs := rfl
@[simp] theorem present_draws (p : Pins) (s : State) : (present p s).draws = s.draws := rfl

/-! ### resetEdge -/

@[simp] theorem resetEdge_sbox (s : State) : (resetEdge s).sbox = Config.freeTable s.draws := rfl
@[simp] theorem resetEdge_key (s : State) : (resetEdge s).key = Config.freeTable (s.draws + 1) := rfl
@[simp] theorem resetEdge_klen (s : State) : (resetEdge s).klen = (Config.freeWord s.draws).setWidth 9 := rfl
@[simp] theorem resetEdge_r (s : State) : (resetEdge s).r = (Config.freeWord (s.draws + 1)).setWidth 9 := rfl
@[simp] theorem resetEdge_i (s : State) : (resetEdge s).i = (Config.freeWord (s.draws + 2)).setWidth 8 := rfl
@[simp] theorem resetEdge_j (s : State) : (resetEdge s).j = (Config.freeWord (s.draws + 3)).setWidth 8 := rfl
@[simp] theorem resetEdge_ks (s : State) : (resetEdge s).ks = (Config.freeWord (s.draws + 4)).setWidth 8 := rfl
@[simp] theorem resetEdge_dout (s : State) : (resetEdge s).dout = (Config.freeWord (s.draws + 5)).setWidth 8 := rfl
@[simp] theorem resetEdge_kscount (s : State) : (resetEdge s).kscount = Config.freeWord (s.draws + 6) := rfl
@[simp] theorem resetEdge_phase (s : State) : (resetEdge s).phase = Config.freePhase s.draws := rfl
@[simp] theorem resetEdge_busy (s : State) : (resetEdge s).busy = true := rfl
@[simp] theorem resetEdge_pend (s : State) : (resetEdge s).pend = some .init := rfl
@[simp] theorem resetEdge_err (s : State) : (resetEdge s).err = 0 := rfl
@[simp] theorem resetEdge_rdata (s : State) : (resetEdge s).rdata = s.rdata := rfl
@[simp] theorem resetEdge_left (s : State) : (resetEdge s).left = Config.latResetInit := rfl
@[simp] theorem resetEdge_inputs (s : State) : (resetEdge s).inputs = s.inputs := rfl
@[simp] theorem resetEdge_draws (s : State) : (resetEdge s).draws = s.draws + 7 := rfl

/-! ### finish -/

@[simp] theorem finish_sbox (s : State) : (finish s).sbox = s.sbox := rfl
@[simp] theorem finish_key (s : State) : (finish s).key = s.key := rfl
@[simp] theorem finish_klen (s : State) : (finish s).klen = s.klen := rfl
@[simp] theorem finish_r (s : State) : (finish s).r = s.r := rfl
@[simp] theorem finish_i (s : State) : (finish s).i = s.i := rfl
@[simp] theorem finish_j (s : State) : (finish s).j = s.j := rfl
@[simp] theorem finish_ks (s : State) : (finish s).ks = s.ks := rfl
@[simp] theorem finish_dout (s : State) : (finish s).dout = s.dout := rfl
@[simp] theorem finish_kscount (s : State) : (finish s).kscount = s.kscount := rfl
@[simp] theorem finish_phase (s : State) : (finish s).phase = s.phase := rfl
@[simp] theorem finish_busy (s : State) : (finish s).busy = false := rfl
@[simp] theorem finish_pend (s : State) : (finish s).pend = none := rfl
@[simp] theorem finish_err (s : State) : (finish s).err = s.err := rfl
@[simp] theorem finish_rdata (s : State) : (finish s).rdata = s.rdata := rfl
@[simp] theorem finish_left (s : State) : (finish s).left = 0 := rfl
@[simp] theorem finish_inputs (s : State) : (finish s).inputs = s.inputs := rfl
@[simp] theorem finish_draws (s : State) : (finish s).draws = s.draws := rfl

end Sys2Proof.Machine
end

