-- ==== Sys2Proof/Laws/Ops.lean ====
section
/-! SUPPORT. What the write of a command can do: the checks of R200 and their one outcome each. -/

namespace Sys2Proof.Machine

/-- A command passes every check exactly when nothing is in flight and it is admitted (R200). -/
theorem rejectionOf_eq_none_iff (c : Instr) (s : State) (hc : setsBusy c = true) :
    rejectionOf c s = none ↔ s.busy = false ∧ Admitted c s := by
  unfold rejectionOf Admitted
  split_ifs <;> simp_all

/-- A command written while one is in flight is rejected with BUSY (R234). -/
theorem rejectionOf_busy (c : Instr) {s : State} (h : s.busy = true) : rejectionOf c s = some .busy := by
  simp [rejectionOf, h]

/-- A command that sets BUSY is accepted as it stands, or rejected with one code. -/
theorem submit_cases (c : Instr) (s : State) :
    (rejectionOf c s = none ∧ submit c s = accept c s) ∨
      ∃ code, rejectionOf c s = some code ∧ submit c s = reject code s := by
  unfold submit
  cases h : rejectionOf c s with
  | none => exact .inl ⟨rfl, rfl⟩
  | some code => exact .inr ⟨code, rfl, rfl⟩

theorem submit_of_admitted {c : Instr} {s : State} (hc : setsBusy c = true) (hb : s.busy = false)
    (h : Admitted c s) : submit c s = accept c s := by
  rw [submit, (rejectionOf_eq_none_iff c s hc).2 ⟨hb, h⟩]

/-- The write of a legal command: no effect, ERR cleared, a rejection, or an acceptance; nothing else (R200). -/
theorem exec_cases {c : Instr} {s t : State} (h : exec c s = .next t) :
    (c = .nop ∧ t = s) ∨ (c = .errClear ∧ t = clearErr s) ∨
      (setsBusy c = true ∧ ∃ code, rejectionOf c s = some code ∧ t = reject code s) ∨
      (setsBusy c = true ∧ rejectionOf c s = none ∧ t = accept c s) := by
  have key : ∀ {c}, setsBusy c = true → (.next (submit c s) : Host.Outcome State Fault Refusal) = .next t →
      (setsBusy c = true ∧ ∃ code, rejectionOf c s = some code ∧ t = reject code s) ∨
        (setsBusy c = true ∧ rejectionOf c s = none ∧ t = accept c s) := by
    intro c hc e
    injection e with e
    subst e
    rcases submit_cases c s with ⟨h1, h2⟩ | ⟨code, h1, h2⟩
    · exact .inr ⟨hc, h1, h2⟩
    · exact .inl ⟨hc, code, h1, h2⟩
  cases c with
  | nop => injection h with h; exact .inl ⟨rfl, h.symm⟩
  | errClear => injection h with h; exact .inr (.inl ⟨rfl, h.symm⟩)
  | init => exact .inr (.inr (key rfl h))
  | keyPush b => exact .inr (.inr (key rfl h))
  | ksaStep => exact .inr (.inr (key rfl h))
  | ksaRun => exact .inr (.inr (key rfl h))
  | prgaXor m => exact .inr (.inr (key rfl h))

end Sys2Proof.Machine
end

