-- ==== Sys2Proof/Laws/Engine.lean ====
section
/-! SUPPORT. What KSA rounds and completions leave unchanged, and what a completion is for each command. -/

namespace Sys2Proof.Machine

/-- The fields no command's effect touches: the model's own, the flags BUSY, PEND and ERR, and `rdata`. -/
def untouched (s : State) : Bool × Option Instr × BitVec 4 × Word × Nat × List Pins × Nat :=
  (s.busy, s.pend, s.err, s.rdata, s.left, s.inputs, s.draws)

/-- One KSA round, both ways it can end (R130, R131). -/
theorem ksaRound_cases (s : State) :
    (s.r + 1 ≠ 256#9 ∧ ksaRound s =
      { s with sbox := swapEntries s.sbox (roundIndex s.r) (ksaNextJ s), j := ksaNextJ s, r := s.r + 1 }) ∨
    (s.r + 1 = 256#9 ∧ ksaRound s =
      { s with sbox := swapEntries s.sbox (roundIndex s.r) (ksaNextJ s), j := 0, i := 0, kscount := 0, phase := .keyed
               r := 256#9 }) := by
  by_cases h : s.r + 1 = 256#9
  · refine .inr ⟨h, ?_⟩
    unfold ksaRound
    dsimp only
    rw [if_pos h, ← h]
    rfl
  · exact .inl ⟨h, if_neg h⟩

@[simp] theorem ksaRound_sbox (s : State) :
    (ksaRound s).sbox = swapEntries s.sbox (roundIndex s.r) (ksaNextJ s) := by
  rcases ksaRound_cases s with ⟨_, h⟩ | ⟨_, h⟩ <;> rw [h]

@[simp] theorem ksaRound_r (s : State) : (ksaRound s).r = s.r + 1 := by
  rcases ksaRound_cases s with ⟨_, h⟩ | ⟨e, h⟩ <;> rw [h]
  exact e.symm

@[simp] theorem ksaRound_key (s : State) : (ksaRound s).key = s.key := by
  rcases ksaRound_cases s with ⟨_, h⟩ | ⟨_, h⟩ <;> rw [h]

@[simp] theorem ksaRound_klen (s : State) : (ksaRound s).klen = s.klen := by
  rcases ksaRound_cases s with ⟨_, h⟩ | ⟨_, h⟩ <;> rw [h]

@[simp] theorem ksaRound_ks (s : State) : (ksaRound s).ks = s.ks := by
  rcases ksaRound_cases s with ⟨_, h⟩ | ⟨_, h⟩ <;> rw [h]

@[simp] theorem ksaRound_dout (s : State) : (ksaRound s).dout = s.dout := by
  rcases ksaRound_cases s with ⟨_, h⟩ | ⟨_, h⟩ <;> rw [h]

@[simp] theorem ksaRound_untouched (s : State) : untouched (ksaRound s) = untouched s := by
  rcases ksaRound_cases s with ⟨_, h⟩ | ⟨_, h⟩ <;> rw [h] <;> rfl

/-- Rounds keep K, KLEN, KS, DOUT and the untouched fields. -/
theorem ksaRounds_frame (n : Nat) (s : State) :
    (ksaRounds n s).key = s.key ∧ (ksaRounds n s).klen = s.klen ∧ (ksaRounds n s).ks = s.ks ∧
      (ksaRounds n s).dout = s.dout ∧ untouched (ksaRounds n s) = untouched s := by
  induction n generalizing s with
  | zero => exact ⟨rfl, rfl, rfl, rfl, rfl⟩
  | succ n ih => simpa [ksaRounds] using ih (ksaRound s)

theorem ksaRounds_add (m n : Nat) (s : State) : ksaRounds (m + n) s = ksaRounds n (ksaRounds m s) := by
  induction m generalizing s with
  | zero => simp [ksaRounds]
  | succ m ih => rw [Nat.succ_add]; exact ih (ksaRound s)

/-- KSA_STEP's effect is the round, with PHASE = KSA while rounds remain (R132). -/
theorem ksaStepEffect_cases (s : State) :
    ((ksaRound s).r < 256#9 ∧ ksaStepEffect s = { ksaRound s with phase := .ksa }) ∨
      (¬ (ksaRound s).r < 256#9 ∧ ksaStepEffect s = ksaRound s) := by
  unfold ksaStepEffect
  by_cases h : (ksaRound s).r < 256#9
  · exact .inl ⟨h, if_pos h⟩
  · exact .inr ⟨h, if_neg h⟩

theorem ksaStepEffect_frame (s : State) :
    (ksaStepEffect s).sbox = (ksaRound s).sbox ∧ (ksaStepEffect s).r = s.r + 1 ∧ (ksaStepEffect s).key = s.key ∧
      (ksaStepEffect s).klen = s.klen ∧ (ksaStepEffect s).ks = s.ks ∧ (ksaStepEffect s).dout = s.dout ∧
      untouched (ksaStepEffect s) = untouched s := by
  have hu := ksaRound_untouched s
  rcases ksaStepEffect_cases s with ⟨_, h⟩ | ⟨_, h⟩ <;> rw [h] <;>
    exact ⟨rfl, ksaRound_r s, ksaRound_key s, ksaRound_klen s, ksaRound_ks s, ksaRound_dout s, hu⟩

/-- No effect touches BUSY, PEND, ERR, `rdata` or the model's own fields (R32, R34). -/
theorem effect_untouched (c : Instr) (s : State) : untouched (effect c s) = untouched s := by
  cases c with
  | nop => rfl
  | errClear => rfl
  | init => rfl
  | keyPush b => rfl
  | prgaXor m => rfl
  | ksaStep => exact (ksaStepEffect_frame s).2.2.2.2.2.2
  | ksaRun => exact (ksaRounds_frame _ s).2.2.2.2

theorem pendEffect_untouched (s : State) : untouched (pendEffect s) = untouched s := by
  unfold pendEffect
  split
  · rfl
  · exact effect_untouched _ s

@[simp] theorem pendEffect_err (s : State) : (pendEffect s).err = s.err :=
  congrArg (·.2.2.1) (pendEffect_untouched s)

@[simp] theorem pendEffect_rdata (s : State) : (pendEffect s).rdata = s.rdata :=
  congrArg (·.2.2.2.1) (pendEffect_untouched s)

@[simp] theorem pendEffect_inputs (s : State) : (pendEffect s).inputs = s.inputs :=
  congrArg (·.2.2.2.2.2.1) (pendEffect_untouched s)

@[simp] theorem pendEffect_draws (s : State) : (pendEffect s).draws = s.draws :=
  congrArg (·.2.2.2.2.2.2) (pendEffect_untouched s)

/-- What is pending right after acceptance is the accepted command. -/
@[simp] theorem pendEffect_accept (c : Instr) (s : State) : pendEffect (accept c s) = effect c (accept c s) := rfl

/-- The state with the fields that no effect touches replaced by those of `o`. -/
def withUntouched (s o : State) : State :=
  { s with busy := o.busy, pend := o.pend, err := o.err, rdata := o.rdata, left := o.left, inputs := o.inputs, draws := o.draws }

theorem ksaRound_withUntouched (s o : State) : ksaRound (withUntouched s o) = withUntouched (ksaRound s) o := by
  rcases ksaRound_cases s with ⟨h1, h2⟩ | ⟨h1, h2⟩ <;>
    rcases ksaRound_cases (withUntouched s o) with ⟨h3, h4⟩ | ⟨h3, h4⟩ <;>
    first | contradiction | (rw [h2, h4]; rfl)

theorem ksaRounds_withUntouched (n : Nat) (s o : State) :
    ksaRounds n (withUntouched s o) = withUntouched (ksaRounds n s) o := by
  induction n generalizing s with
  | zero => rfl
  | succ n ih => simp only [ksaRounds, ksaRound_withUntouched, ih]

/-- Effects neither read nor write the untouched fields. -/
theorem effect_withUntouched (c : Instr) (s o : State) :
    effect c (withUntouched s o) = withUntouched (effect c s) o := by
  cases c with
  | ksaStep =>
    simp only [effect, ksaStepEffect, ksaRound_withUntouched]
    by_cases h : (ksaRound s).r < 256#9
    · rw [if_pos h, if_pos (show (withUntouched (ksaRound s) o).r < 256#9 from h)]
      rfl
    · rw [if_neg h, if_neg (show ¬ (withUntouched (ksaRound s) o).r < 256#9 from h)]
  | ksaRun => exact ksaRounds_withUntouched _ s o
  | _ => rfl

/-- A completion is the pending command's effect with BUSY, PEND and the countdown cleared. -/
theorem complete_of_pend {s : State} {c : Instr} (h : s.pend = some c) :
    complete s = { effect c s with busy := false, pend := none, left := 0 } := by
  simp only [complete, pendEffect, h]

/-- Completion leaves the port, the coming pins and the draws as they are, and does not depend on them. -/
theorem complete_port (s : State) (x : Word) (d : Nat) (i : List Pins) (l : Nat) :
    complete { s with rdata := x, draws := d, inputs := i, left := l } =
      { complete s with rdata := x, draws := d, inputs := i } := by
  obtain ⟨o, ho⟩ : ∃ o : State, o = { s with rdata := x, draws := d, inputs := i, left := l } := ⟨_, rfl⟩
  have h1 : o = withUntouched s o := by rw [ho]; rfl
  rw [← ho]
  cases hp : s.pend with
  | none =>
    have hq : o.pend = none := by rw [ho]; exact hp
    simp only [complete, pendEffect, hp, hq]
    rw [ho]
  | some c =>
    have hq : o.pend = some c := by rw [ho]; exact hp
    have he : effect c o = withUntouched (effect c s) o := by rw [← effect_withUntouched, ← h1]
    have hu := effect_untouched c s
    simp only [untouched, Prod.mk.injEq] at hu
    rw [complete_of_pend hp, complete_of_pend hq, he, ho]
    simp [withUntouched, hu]

/-- Acceptance followed by completion is the command's effect on the state before acceptance. -/
theorem complete_accept (c : Instr) (s : State) :
    complete (accept c s) = { effect c s with busy := false, pend := none, left := 0 } := by
  have h := effect_withUntouched c s (accept c s)
  rw [show withUntouched s (accept c s) = accept c s from rfl] at h
  have hu := effect_untouched c s
  simp only [untouched, Prod.mk.injEq] at hu
  rw [complete_of_pend rfl, h]
  simp only [withUntouched, accept_err, accept_rdata, accept_inputs, accept_draws, ← hu.2.2.1, ← hu.2.2.2.1,
    ← hu.2.2.2.2.2.1, ← hu.2.2.2.2.2.2]

/-- The engine at an edge: completion on the last one, a shorter wait otherwise. -/
theorem engineTick_cases (s : State) :
    (s.left ≤ 1 ∧ engineTick s = complete s) ∨ (1 < s.left ∧ engineTick s = { s with left := s.left - 1 }) := by
  unfold engineTick
  by_cases h : s.left ≤ 1
  · exact .inl ⟨h, by simp [h]⟩
  · exact .inr ⟨by omega, by simp [h]⟩

end Sys2Proof.Machine
end

