-- ==== Sys2Proof/Laws/PerInstr.lean ====
section
/-! SUPPORT. A family of statements about every command as syntax: its encoding has the fields of its row (R81, R83), and
the row's match and mask accept it. -/

namespace Sys2Proof.Laws.Encoding

/-- The command's fields are legal, its word has exactly those fields, and its row accepts the word. -/
def Statement (i : Instr) : Prop :=
  i.fields.WellFormed ∧ fieldsOf (encode i) = i.fields ∧ (rowOf i).accepts (encode i) = true

theorem nop : Statement .nop := ⟨by decide, by decide, by decide⟩

theorem init : Statement .init := ⟨by decide, by decide, by decide⟩

theorem keyPush (b : Byte) : Statement (.keyPush b) := by
  revert b
  unfold Statement
  decide +kernel

theorem ksaStep : Statement .ksaStep := ⟨by decide, by decide, by decide⟩

theorem ksaRun : Statement .ksaRun := ⟨by decide, by decide, by decide⟩

theorem prgaXor (m : Byte) : Statement (.prgaXor m) := by
  revert m
  unfold Statement
  decide +kernel

theorem errClear : Statement .errClear := ⟨by decide, by decide, by decide⟩

end Sys2Proof.Laws.Encoding
end

