-- ==== Sys2Proof/Laws/Step.lean ====
section
/-! SUPPORT. What one access and one edge can do. -/

namespace Sys2Proof.Machine

/-- Each mapped register is found at its own word address (R52). -/
theorem regAt_regAddr (reg : Reg) : regAt (regAddr reg) = some reg := by
  cases reg with
  | sbox k =>
    have hk : k.toNat < 256 := k.isLt
    have hn : (regAddr (.sbox k)).toNat = 256 + k.toNat := by simp [regAddr]; omega
    unfold regAt
    rw [hn]
    split
    all_goals first | omega | skip
    rw [if_pos (by omega)]
    simp
  | _ => rfl

/-- A read depends on the architectural state alone (R52 to R55). -/
theorem portRead_congr {s t : State} (h : archState s = archState t) (free : Word) (a : WordAddr) :
    portRead free s a = portRead free t a := by
  simp only [archState, engineRegs, Prod.mk.injEq] at h
  obtain ⟨⟨h1, h2, h3, h4, h5, h6, h7, h8, h9, h10⟩, h11, h12, h13⟩ := h
  unfold portRead
  cases regAt a with
  | none => rfl
  | some reg => cases reg <;> simp only [readReg, indexBits, outBits, h1, h3, h4, h5, h6, h7, h8, h9, h10, h11, h13]

/-- A command word written to CMD: rejected as illegal, or handled by its command (R200). -/
theorem cmdWrite_cases {w : Word} {s t : State} (h : cmdWrite w s = .next t) :
    t = s ∨ t = clearErr s ∨ (∃ code, t = reject code s) ∨
      ∃ c, setsBusy c = true ∧ rejectionOf c s = none ∧ t = accept c s := by
  unfold cmdWrite at h
  split at h
  · injection h with h
    exact .inr (.inr (.inl ⟨.illegal, h.symm⟩))
  · rename_i c _
    rcases exec_cases h with ⟨_, h⟩ | ⟨_, h⟩ | ⟨_, code, _, h⟩ | ⟨hc, hn, h⟩
    · exact .inl h
    · exact .inr (.inl h)
    · exact .inr (.inr (.inl ⟨code, h⟩))
    · exact .inr (.inr (.inr ⟨c, hc, hn, h⟩))

/-- CMD is at word address 0 alone (R52). -/
theorem regAt_eq_cmd {a : WordAddr} (h : regAt a = some .cmd) : a = 0#10 := by
  unfold regAt at h
  split at h
  all_goals first | exact BitVec.eq_of_toNat_eq (by assumption) | cases h | (split at h <;> cases h)

/-- What one host access can do: change ERR and `rdata` at most, or be the accepted write of a command to CMD (R51, R57, R200). -/
theorem hostAccess_changes {p : Pins} {free : Word} {s t : State} (h : hostAccess p free s = .next t) :
    (∃ e d, t = { s with err := e, rdata := d }) ∨
      (p.req = true ∧ p.we = true ∧ p.waddr = 0#10 ∧
        ∃ c, decode p.wdata = .ok c ∧ setsBusy c = true ∧ rejectionOf c s = none ∧ t = accept c s) := by
  unfold hostAccess at h
  split at h
  · injection h with h
    exact .inl ⟨s.err, s.rdata, h.symm⟩
  · rename_i hr hw
    unfold portWrite at h
    split at h
    · rename_i ha
      unfold cmdWrite at h
      split at h
      · injection h with h
        exact .inl ⟨_, s.rdata, h.symm⟩
      · rename_i c hd
        rcases exec_cases h with ⟨_, h⟩ | ⟨_, h⟩ | ⟨_, code, _, h⟩ | ⟨hc, hn, h⟩
        · exact .inl ⟨s.err, s.rdata, h⟩
        · exact .inl ⟨_, s.rdata, h⟩
        · exact .inl ⟨_, s.rdata, h⟩
        · exact .inr ⟨hr, hw, regAt_eq_cmd ha, c, hd, hc, hn, h⟩
    · injection h with h
      exact .inl ⟨s.err, s.rdata, h.symm⟩
  · injection h with h
    exact .inl ⟨s.err, _, h.symm⟩

/-- One host access: nothing, `rdata`, ERR, or an acceptance. -/
theorem hostAccess_cases {p : Pins} {free : Word} {s t : State} (h : hostAccess p free s = .next t) :
    t = s ∨ t = { s with rdata := portRead free s p.waddr } ∨ t = clearErr s ∨ (∃ code, t = reject code s) ∨
      ∃ c, setsBusy c = true ∧ rejectionOf c s = none ∧ t = accept c s := by
  unfold hostAccess at h
  split at h
  · injection h with h
    exact .inl h.symm
  · unfold portWrite at h
    split at h
    · rcases cmdWrite_cases h with h | h | h | h
      · exact .inl h
      · exact .inr (.inr (.inl h))
      · exact .inr (.inr (.inr (.inl h)))
      · exact .inr (.inr (.inr (.inr h)))
    · injection h with h
      exact .inl h.symm
  · injection h with h
    exact .inr (.inl h.symm)

/-- While a command is in flight an access can only set `rdata` or ERR (R203, R234). -/
theorem hostAccess_busy {p : Pins} {free : Word} {s t : State} (hb : s.busy = true)
    (h : hostAccess p free s = .next t) : ∃ e d, t = { s with err := e, rdata := d } := by
  rcases hostAccess_cases h with h | h | h | ⟨code, h⟩ | ⟨c, _, hn, _⟩
  · exact ⟨s.err, s.rdata, h⟩
  · exact ⟨s.err, _, h⟩
  · exact ⟨_, s.rdata, h⟩
  · exact ⟨_, s.rdata, h⟩
  · rw [rejectionOf_busy c hb] at hn
    cases hn

/-- One edge: reset, or one access followed by the engine if a command was in flight. -/
theorem step_cases {s t : State} (h : step s = .next t) :
    ((nextPins s).rst = true ∧ t = resetEdge (nextCycle (dropPins s))) ∨
      ((nextPins s).rst = false ∧ ∃ u,
        hostAccess (nextPins s) (Config.freeWord s.draws) (nextCycle (dropPins s)) = .next u ∧
          t = if s.busy then engineTick u else u) := by
  unfold step clockEdge at h
  split at h
  · rename_i hr
    injection h with h
    exact .inl ⟨hr, h.symm⟩
  · rename_i hr
    unfold accessEdge at h
    refine .inr ⟨by simpa using hr, ?_⟩
    split at h
    · rename_i u hu
      injection h with h
      exact ⟨u, hu, h.symm⟩
    · cases h
    · cases h

/-- The run of `n` edges is the host's own run. -/
theorem runEdges_eq_core_run (n : Nat) (s : State) : runEdges n s = Host.Core.run Sys2Proof.core n s := by
  induction n generalizing s with
  | zero => rfl
  | succ n ih =>
    have hs : Host.Core.step Sys2Proof.core s = step s := rfl
    simp only [runEdges, Host.Core.run, hs]
    cases step s with
    | next t => exact ih t
    | fault f => rfl
    | refused x => rfl

end Sys2Proof.Machine
end

