-- ==== Sys2Proof/Tests/Slice0.lean ====
section
/-! SUPPORT. Tests: ill-formed fields, words written out from 30_encoding.md, one or two small cases of each command from
95_test_vectors.md, and for each obligation a witness that meets its hypotheses. -/

namespace Sys2Proof.Tests

open Sys2Proof Sys2Proof.Machine

/-! ### Small states -/

/-- After INIT and KEY_PUSH 0x01. -/
def keyOne : State := { State.reset with key := setEntry zeroTable 0 1, klen := 1 }

/-- Phase KSA with the round counter at `r`, on the identity table. -/
def inKsa (r : BitVec 9) : State := { keyOne with phase := .ksa, r := r }

/-- Phase KEYED on the given table, with J = `j`. -/
def inKeyed (t : Table) (j : Byte) : State := { keyOne with phase := .keyed, r := 256, sbox := t, j := j }

/-- `c` in flight with `n` edges left. -/
def inFlight (c : Instr) (n : Nat) (s : State) : State := { s with busy := true, pend := some c, left := n }

/-- A permutation with S[1] = 3, S[3] = 254, S[254] = 1: from I = J = 0 a PRGA round has I = 1, J = 3, t = 1 = I. -/
def postSwapI : Table := swapEntries (swapEntries identityTable 1 3) 3 254

/-- A permutation with S[1] = 3, S[3] = 0, S[0] = 1: from I = J = 0 a PRGA round has I = 1, J = 3, t = 3 = J. -/
def postSwapJ : Table := swapEntries (swapEntries identityTable 1 3) 3 0

theorem settled_reset : Settled State.reset := ⟨isPermutation_identityTable, by decide, rfl, rfl, rfl, rfl, rfl, rfl, rfl⟩

theorem settled_keyOne : Settled keyOne := ⟨isPermutation_identityTable, by decide, rfl, rfl, rfl, rfl, rfl, rfl, rfl⟩

theorem settled_inKsa : Settled (inKsa 1) := ⟨isPermutation_identityTable, by decide, by decide, by decide, by decide, rfl⟩

theorem settled_inKeyed (j : Byte) : Settled (inKeyed identityTable j) :=
  ⟨isPermutation_identityTable, by show (1#9).toNat ≤ 256; decide, rfl, by show 1 ≤ (1#9).toNat; decide⟩

theorem inv_of_settled {s : State} (h : Settled s) (hb : s.busy = false) (hp : s.pend = none) (he : s.err = 0) :
    MachineInv s :=
  ⟨by rw [hb, hp]; rfl, fun _ => h, fun c hc => by simp [hp] at hc, by simp [he], by simp [hb]⟩

theorem inv_inFlight {s : State} {c : Instr} (h : Settled s) (ha : c = .init ∨ Admitted c s) (he : s.err = 0) :
    MachineInv (inFlight c 1 s) :=
  ⟨rfl, fun hb => by simp [inFlight] at hb,
    fun d hd => by
      obtain rfl : c = d := by simpa [inFlight] using hd
      exact ha.imp id fun a => ⟨h, a⟩,
    by simp [inFlight, he], fun _ => Nat.le_refl 1⟩

/-! ### Well-formedness: one ill-formed term for each check (R84, R85), and the host-side checks (R87, R88) -/

theorem test_rsv0_refused : (Fields.mk 2#4 1#4 0x4B#8 0#16).check = some .rsv0NotZero := by decide

theorem test_rsv1_refused : (Fields.mk 2#4 0#4 0x4B#8 0x8000#16).check = some .rsv1NotZero := by decide

theorem test_reserved_opcode_refused : (Fields.mk 7#4 0#4 0#8 0#16).check = some .reservedOpcode := by decide

theorem test_arg_refused : (Fields.mk 1#4 0#4 1#8 0#16).check = some .argNotZero := by decide

theorem test_operand_range : assemble (.keyPush 256) = .error (.operandRange 256) ∧
    assemble (.keyPush 255) = .ok (Pins.write 0#10 0x0000FF02#32) := by decide

theorem test_loadkey_length : expand (.loadKey []) = .error (.keyLength 0) ∧
    expand (.loadKey (List.replicate 257 0)) = .error (.keyLength 257) := by decide +kernel

/-- 95_test_vectors.md 3: the codec at W = 8 and W = 12, the strict rejection, and the rendering of 0x67. -/
theorem test_codec : decodeString 8 "0000000101001011".toList = .ok [0x01, 0x4B] ∧ decodeString 8 [] = .ok [] ∧
    decodeString 8 "0110000".toList = .error .invalidInput ∧ decodeString 12 "000100000001".toList = .ok [0x101] ∧
    chunkByte 0x101 = 0x01 ∧ outputChunk 12 0x161 0x67 = .ok "000101100111".toList ∧
    encodeString 8 [0x67] = .ok "01100111".toList := by decide +kernel

/-- R183 on the reads of program P1's one byte (OUT = 0x00000667, KSCOUNT = 1, then 256 reads of SBOX): round index 0, that
snapshot, keystream [0x06], output 0x67; with no byte no entry. -/
theorem test_prga_trace : let reads : List Word := 0x667 :: 1 :: List.replicate 256 9
    prgaTraceOf 1 reads = some ⟨[(0, List.replicate 256 9)], [0x06]⟩ ∧ prgaTraceOf 0 [] = some ⟨[], []⟩ ∧
    callOutputs [0x667] = [0x67] := by decide +kernel

/-- The default chunk factor's width is 8 (R174); 95_test_vectors.md's message string of P1 is a call without naming it. -/
theorem test_default_width : chunkWidth = .ok 8 ∧
    stringCall "00000001".toList "01100001".toList = .ok (callProgram [1] [0x61]) := by
  refine ⟨chunkWidth_default, ?_⟩
  rw [stringCall, chunkWidth_default]
  decide +kernel

/-! ### Decoding: words written out bit by bit as RSV1, ARG, RSV0, OPC (R81, R83) -/

theorem test_decode_nop : decode (0b0000000000000000#16 ++ 0b00000000#8 ++ 0b0000#4 ++ 0b0000#4) = .ok .nop := by decide

theorem test_decode_init : decode (0b0000000000000000#16 ++ 0b00000000#8 ++ 0b0000#4 ++ 0b0001#4) = .ok .init := by
  decide

theorem test_decode_key_push :
    decode (0b0000000000000000#16 ++ 0b01001011#8 ++ 0b0000#4 ++ 0b0010#4) = .ok (.keyPush 0x4B#8) := by decide

theorem test_decode_ksa_step :
    decode (0b0000000000000000#16 ++ 0b00000000#8 ++ 0b0000#4 ++ 0b0011#4) = .ok .ksaStep := by decide

theorem test_decode_ksa_run :
    decode (0b0000000000000000#16 ++ 0b00000000#8 ++ 0b0000#4 ++ 0b0100#4) = .ok .ksaRun := by decide

theorem test_decode_prga_xor :
    decode (0b0000000000000000#16 ++ 0b01100001#8 ++ 0b0000#4 ++ 0b0101#4) = .ok (.prgaXor 0x61#8) := by decide

theorem test_decode_err_clear :
    decode (0b0000000000000000#16 ++ 0b00000000#8 ++ 0b0000#4 ++ 0b0110#4) = .ok .errClear := by decide

/-- The legal edge words of 95_test_vectors.md 2.1. -/
theorem test_decode_edges : decode 0x0000FF02#32 = .ok (.keyPush 0xFF#8) ∧ decode 0x00000005#32 = .ok (.prgaXor 0#8) := by
  decide

/-- The illegal words of 95_test_vectors.md 2.1. -/
theorem test_decode_illegal :
    decode 0x00000007#32 = .error .reservedOpcode ∧ decode 0x0000000F#32 = .error .reservedOpcode ∧
    decode 0x00000101#32 = .error .argNotZero ∧ decode 0x00000100#32 = .error .argNotZero ∧
    decode 0x00000011#32 = .error .rsv0NotZero ∧ decode 0x00010001#32 = .error .rsv1NotZero ∧
    decode 0x80000002#32 = .error .rsv1NotZero := by decide

/-- A command is one 32-bit word: bits above it fit none (R86). -/
theorem test_table_word : decodeTableWord 32 0x4B02 = some (.keyPush 0x4B#8) ∧ decodeTableWord 40 0x100000000 = none := by
  decide

/-! ### Registers (95_test_vectors.md 2.2) -/

/-- PHASE = KEYED with ERR = 3 reads 0x38; R = 256, J = 222, I = 9 read 0x0100DE09; KS = 0xA7, DOUT = 0xD3 read 0xA7D3. -/
theorem test_register_reads :
    portRead 0xFFFFFFFF#32 { inKeyed identityTable 222 with err := 3 } 1#10 = 0x38#32 ∧
    portRead 0xFFFFFFFF#32 { inKeyed identityTable 222 with i := 9 } 3#10 = 0x0100DE09#32 ∧
    portRead 0xFFFFFFFF#32 { keyOne with ks := 0xA7, dout := 0xD3 } 4#10 = 0xA7D3#32 := by decide

/-- SBOX[200] of the identity is at byte offset 0x720; with BUSY = 1 its read is free in bits 7:0 alone. -/
theorem test_sbox_read : regOffset (.sbox 200) = 0x720 ∧ portRead 0#32 keyOne (regAddr (.sbox 200)) = 0xC8#32 ∧
    portRead 0xFFFFFFFF#32 (inFlight .init 1 keyOne) (regAddr (.sbox 200)) = 0xFF#32 := by decide +kernel

/-- Word addresses 0x006, 0x0FF, 0x200 and 0x3FF (offsets 0x018, 0x3FC, 0x800, 0xFFC) are unmapped, 0x100 and 0x1FF are
SBOX[0] and SBOX[255]. -/
theorem test_register_map : regAt 0x006#10 = none ∧ regAt 0x0FF#10 = none ∧ regAt 0x200#10 = none ∧
    regAt 0x3FF#10 = none ∧ regAt 0x100#10 = some (.sbox 0) ∧ regAt 0x1FF#10 = some (.sbox 255) := by decide

/-! ### Commands (95_test_vectors.md 2.3 to 2.6) -/

/-- V-C4: NOP while INIT is in flight. -/
theorem test_nop : exec .nop (inFlight .init 2 keyOne) = .next (inFlight .init 2 keyOne) := rfl

/-- V-C1, V-C3: INIT on a keyed engine keeps ERR and clears KLEN, R, I, J, KSCOUNT. -/
theorem test_init : let t := perform .init { inKeyed postSwapI 222 with i := 9, kscount := 9, klen := 3, err := 3 }
    t.phase = .ready ∧ t.klen = 0 ∧ indexBits t = 0 ∧ outBits t = 0 ∧ t.kscount = 0 ∧ t.err = 3 ∧ t.busy = false ∧
      t.sbox = identityTable := by decide +kernel

/-- V-C7: INIT while a command is in flight is rejected with ERR = 2. -/
theorem test_init_busy : ∃ t, exec .init (inFlight .ksaRun 5 keyOne) = .next t ∧ t.err = 2 ∧ t.pend = some .ksaRun ∧
    t.left = 5 := ⟨_, rfl, by decide⟩

/-- V-C5: ERR_CLEAR at BUSY = 1. -/
theorem test_err_clear : ∃ t, exec .errClear { inFlight .init 2 keyOne with err := 2 } = .next t ∧ t.err = 0 ∧
    t.busy = true := ⟨_, rfl, by decide⟩

/-- V-C6: ERR_CLEAR with ARG = 1 is illegal. -/
theorem test_err_clear_illegal : ∃ t, cmdWrite 0x00000106#32 keyOne = .next t ∧ t.err = 1 := ⟨_, rfl, by decide⟩

/-- V-K1: the first push goes to K[0]. -/
theorem test_key_push : (perform (.keyPush 0x4B) State.reset).klen = 1 ∧
    entry (perform (.keyPush 0x4B) State.reset).key 0 = 0x4B := by decide +kernel

/-- V-K2, V-K3: the 256th byte is accepted, the 257th is rejected with ERR = 5. -/
theorem test_key_push_full : (perform (.keyPush 0) { keyOne with klen := 255 }).klen = 256 ∧
    (perform (.keyPush 0) { keyOne with klen := 256 }).err = 5 := by decide +kernel

/-- V-S1, round 0 of key [0x01]: INDEX = 0x00010100, S = 1 0 2 3 ..., phase KSA. -/
theorem test_ksa_step : let t := perform .ksaStep keyOne
    (indexBits t).setWidth 32 = 0x00010100#32 ∧ entry t.sbox 0 = 1 ∧ entry t.sbox 1 = 0 ∧ entry t.sbox 2 = 2 ∧
      t.phase = .ksa := by decide +kernel

/-- V-S1, round 255: S[0] and S[255] swap, J is cleared, R = 256, phase KEYED. -/
theorem test_ksa_step_last :
    let t := perform .ksaStep { inKsa 255 with j := 255, sbox := swapEntries identityTable 0 255 }
    (indexBits t).setWidth 32 = 0x01000000#32 ∧ entry t.sbox 0 = 0 ∧ entry t.sbox 255 = 255 ∧ t.phase = .keyed := by
  decide +kernel

/-- V-S4: KSA_RUN with an empty key is rejected with ERR = 4. -/
theorem test_ksa_run_empty : (perform .ksaRun State.reset).err = 4 ∧ (perform .ksaRun State.reset).busy = false := by
  decide +kernel

/-- KSA_RUN with one round left runs exactly that round. -/
theorem test_ksa_run_one : (perform .ksaRun (inKsa 255)).r = 256 ∧ (perform .ksaRun (inKsa 255)).phase = .keyed ∧
    entry (perform .ksaRun (inKsa 255)).sbox 255 = 0 := by decide +kernel

/-- As V-P3, t = I: KS is read after the swap (254; before it the entry was 3), and the index moves on. -/
theorem test_prga_post_swap_i : let t := perform (.prgaXor 0x61) (inKeyed postSwapI 0)
    t.i = 1 ∧ t.j = 3 ∧ t.ks = 254 ∧ t.dout = 0x9F ∧ t.kscount = 1 := by decide +kernel

/-- As V-P3, t = J (KS = 3; before the swap the entry was 0), with V-P7's wrap of KSCOUNT. -/
theorem test_prga_post_swap_j : let t := perform (.prgaXor 0) { inKeyed postSwapJ 0 with kscount := 0xFFFFFFFF }
    t.i = 1 ∧ t.j = 3 ∧ t.ks = 3 ∧ t.dout = 3 ∧ t.kscount = 0 := by decide +kernel

/-- XorIsBitwiseAndSelfInverse at the end bits, with the bytes of program P1: 0x61 xor 0x06 = 0x67. -/
theorem test_witness_xor : xorByte 0x61 0x06 = 0x67 ∧ 0 < 8 ∧ 7 < 8 ∧ (xorByte 0x61 0x06).getLsbD 0 = true ∧
    (xorByte 0x61 0x06).getLsbD 7 = false := by decide

/-! ### Steps -/

/-- A command placed for the next edge is accepted by the first step after reset. -/
theorem test_step_accepts : ∃ t, step (State.reset.withFetchWord 32 0x4B02) = .next t ∧ t.busy = true ∧
    t.pend = some (.keyPush 0x4B) ∧ t.klen = 0 := ⟨_, rfl, rfl, rfl, rfl⟩

/-- V-R3: a KEY_PUSH written at the edge at which INIT completes is rejected with BUSY, and INIT completes. -/
theorem test_step_busy : ∃ t, step ((inFlight .init 1 keyOne).withFetchWord 32 0x0102) = .next t ∧ t.err = 2 ∧
    t.busy = false ∧ t.klen = 0 ∧ t.phase = .ready := ⟨_, rfl, rfl, rfl, rfl, rfl⟩

/-- P5's illegal word, as a step. -/
theorem test_step_illegal : ∃ t, step (State.reset.withFetchWord 32 0x0107) = .next t ∧ t.err = 1 ∧ t.busy = false :=
  ⟨_, rfl, rfl, rfl⟩

/-- V-R1: an edge with `rst` = 1. -/
theorem test_step_reset : ∃ t, step (present Pins.reset { inKsa 1 with err := 3 }) = .next t ∧ t.busy = true ∧
    t.pend = some .init ∧ t.err = 0 := ⟨_, rfl, rfl, rfl, rfl⟩

/-! ### Witnesses: each obligation's hypotheses are met -/

theorem test_witness_opcode_row : (⟨"KEY_PUSH", 0x00000002#32, 0xFFFF00FF#32⟩ : OpcodeRow) ∈ opcodeRows ∧
    0x4B02#32 &&& 0xFFFF00FF#32 = 0x00000002#32 ∧ decode 0x4B02#32 = .ok (.keyPush 0x4B) ∧
    decode 0xFF05#32 = .ok (.prgaXor 0xFF) := by decide

/-- StepRunsTheCommandWritten, with a command in flight and without, and with an illegal word. -/
theorem test_witness_write : (present (Pins.write 0#10 0x4B02#32) keyOne).inputs = Pins.write 0#10 0x4B02#32 :: [] ∧
    (present (Pins.write 0#10 0x4B02#32) keyOne).busy = false ∧
    (present (Pins.write 0#10 0x4B02#32) (inFlight .init 1 keyOne)).inputs = Pins.write 0#10 0x4B02#32 :: [] ∧
    decode 0x4B02#32 = .ok (.keyPush 0x4B) ∧
    (present (Pins.write 0#10 0x107#32) keyOne).inputs = Pins.write 0#10 0x107#32 :: [] ∧
    decode 0x107#32 = .error .reservedOpcode := ⟨rfl, rfl, rfl, by decide, rfl, by decide⟩

theorem test_witness_placed : State.reset.busy = false ∧ decodeTableWord 32 0x6105 = some (.prgaXor 0x61) := by decide

/-- PhaseAdmissionTable: code 3 for each row, and code 4. -/
theorem test_witness_phase_table : State.reset.busy = false ∧ State.reset.err = 0 ∧ MachineInv State.reset ∧
    (∃ t, exec .ksaRun State.reset = .next t ∧ t.err = 4) ∧ (∃ t, exec (.keyPush 1) (inKsa 1) = .next t ∧ t.err = 3) ∧
    (∃ t, exec .ksaStep (inKeyed identityTable 0) = .next t ∧ t.err = 3) ∧
    ∃ t, exec (.prgaXor 1) (inKsa 1) = .next t ∧ t.err = 3 :=
  ⟨rfl, rfl, inv_of_settled settled_reset rfl rfl rfl, ⟨_, rfl, by decide⟩, ⟨_, rfl, by decide⟩, ⟨_, rfl, by decide⟩,
    ⟨_, rfl, by decide⟩⟩

/-- RejectionWritesOnlyErr: every code of R201 is the verdict somewhere. -/
theorem test_witness_rejections : decode 0x00000107#32 = .error .reservedOpcode ∧
    (decode 1#32 = .ok .init ∧ setsBusy .init = true ∧ rejectionOf .init (inFlight .init 1 keyOne) = some .busy) ∧
    (decode 0x0105#32 = .ok (.prgaXor 1) ∧ rejectionOf (.prgaXor 1) keyOne = some .state) ∧
    (decode 4#32 = .ok .ksaRun ∧ rejectionOf .ksaRun State.reset = some .keyEmpty) ∧
    (decode 0x0102#32 = .ok (.keyPush 1) ∧ rejectionOf (.keyPush 1) { keyOne with klen := 256 } = some .keyFull) ∧
    rejectionOf (.keyPush 1) { keyOne with klen := 255 } = none := by decide

/-- ErrChangesOnlyByRejectionClearOrReset: by an illegal word, by the verdict on a command, by ERR_CLEAR, by reset. -/
theorem test_witness_err_changes :
    (∃ t, step (present (Pins.write 0#10 7#32) keyOne) = .next t ∧ t.err ≠ keyOne.err) ∧
    (∃ t, step (present (Pins.write 0#10 5#32) keyOne) = .next t ∧ t.err = 3 ∧ t.err ≠ keyOne.err) ∧
    (∃ t, step (present (Pins.write 0#10 6#32) { keyOne with err := 5 }) = .next t ∧ t.err ≠ 5) ∧
    ∃ t, step (present Pins.reset { keyOne with err := 5 }) = .next t ∧ t.err ≠ 5 :=
  ⟨⟨_, rfl, by decide⟩, ⟨_, rfl, by decide, by decide⟩, ⟨_, rfl, by decide⟩, ⟨_, rfl, by decide⟩⟩

/-- The address ranges of the read and write statements, at their ends. -/
theorem test_witness_addresses : (1#10 : WordAddr) ≠ 0#10 ∧ (0x100#10).toNat = 0x100 + (0#8).toNat ∧
    (0x1FF#10).toNat = 0x100 + (255#8).toNat ∧ 6 ≤ (6#10).toNat ∧ (0xFF#10).toNat < 0x100 ∧ 0x200 ≤ (0x200#10).toNat ∧
    0x200 ≤ (0x3FF#10).toNat ∧ 0x100 ≤ (0x100#10).toNat ∧ (0x1FF#10).toNat < 0x200 := by decide

/-- The reads with BUSY = 0 and with BUSY = 1, in every phase, and a read presented at the next edge. -/
theorem test_witness_reads : keyOne.busy = false ∧ keyOne.phase = .ready ∧ (inKsa 1).busy = false ∧ (inKsa 1).phase = .ksa ∧
    (inFlight .init 1 keyOne).busy = true ∧
    (present (Pins.read 3#10) (inFlight .init 1 keyOne)).inputs = Pins.read 3#10 :: [] := by decide

theorem test_witness_access_first : (inFlight .init 1 keyOne).busy = true ∧ (inFlight .init 1 keyOne).left ≤ 1 ∧
    setsBusy (.keyPush 1) = true ∧ setsBusy (.prgaXor 1) = true := by decide

/-- The words that are illegal by a nonzero field beside OPC = 0, 1, 3 and 6. -/
theorem test_witness_illegal_control : (0x100#32).extractLsb' 0 4 = 0#4 ∧ 0x100#32 ≠ 0#32 ∧
    (0x101#32).extractLsb' 0 4 = 1#4 ∧ 0x101#32 ≠ 1#32 ∧ (0x106#32).extractLsb' 0 4 = 6#4 ∧ 0x106#32 ≠ 6#32 ∧
    (0x80000000#32).extractLsb' 0 4 = 0#4 := by decide

/-- INIT and KEY_PUSH: each case of their statements, the ends of KLEN's range among them. -/
theorem test_witness_init_push : keyOne.busy = false ∧ (inFlight .init 1 keyOne).busy = true ∧
    keyOne.phase = .ready ∧ keyOne.klen.toNat < 256 ∧ ({ keyOne with klen := 255 } : State).klen.toNat < 256 ∧
    (1#8).toNat = keyOne.klen.toNat ∧ (inKsa 1).phase ≠ .ready ∧ (inKsa 1).busy = false ∧
    ({ keyOne with klen := 256 } : State).klen = 256 := by decide

/-- KSA_STEP, KSA_RUN and one round: each case of their statements, the ends of R's range among them. -/
theorem test_witness_ksa : (keyOne.busy = false ∧ keyOne.phase = .ready ∧ 1 ≤ keyOne.klen.toNat ∧ keyOne.r.toNat ≤ 255) ∧
    ((inKsa 255).busy = false ∧ (inKsa 255).phase = .ksa ∧ 1 ≤ (inKsa 255).klen.toNat ∧ (inKsa 255).r.toNat = 255) ∧
    (inKsa 254).r.toNat < 255 ∧ (State.reset.busy = false ∧ State.reset.phase = .ready ∧ State.reset.klen = 0) := by decide

theorem test_witness_keyed : (inKeyed identityTable 0).busy = false ∧ (inKeyed identityTable 0).phase = .keyed ∧
    (inFlight .init 1 (inKeyed identityTable 0)).busy = true ∧ (inKsa 1).phase ≠ .keyed := ⟨rfl, rfl, rfl, by decide⟩

/-- StepsAndRunReachTheSameState, from READY and from KSA. -/
theorem test_witness_steps_and_run : (MachineInv keyOne ∧ keyOne.busy = false ∧ keyOne.phase = .ready ∧ keyOne.klen ≠ 0) ∧
    MachineInv (inKsa 1) ∧ (inKsa 1).busy = false ∧ (inKsa 1).phase = .ksa ∧ (inKsa 1).klen ≠ 0 :=
  ⟨⟨inv_of_settled settled_keyOne rfl rfl rfl, rfl, rfl, by decide⟩, inv_of_settled settled_inKsa rfl rfl rfl, rfl, rfl,
    by decide⟩

/-- ScheduledTableDependsOnlyOnTheKey, with two states that differ in an unused key byte, and n = 0, m = 255. -/
theorem test_witness_schedule : let t : State := { keyOne with key := setEntry keyOne.key 9 0xAA }
    IsPermutation keyOne.sbox ∧ MachineInv keyOne ∧ MachineInv t ∧ keyOne.busy = false ∧ t.busy = false ∧
    keyOne.phase = .ready ∧ t.phase = .ready ∧ 1 ≤ keyOne.klen.toNat ∧ t.klen = keyOne.klen ∧
    (∀ k : Byte, k.toNat < keyOne.klen.toNat → entry keyOne.key k = entry t.key k) ∧ 0 ≤ 255 ∧ t.key ≠ keyOne.key := by
  refine ⟨isPermutation_identityTable, inv_of_settled settled_keyOne rfl rfl rfl,
    inv_of_settled (s := { keyOne with key := setEntry keyOne.key 9 0xAA }) settled_keyOne rfl rfl rfl, rfl, rfl, rfl, rfl,
    by decide, rfl, ?_, by decide, ?_⟩
  · intro k hk
    have h9 : k ≠ 9 := by rintro rfl; exact absurd hk (by decide)
    show entry keyOne.key k = entry (setEntry keyOne.key 9 0xAA) k
    rw [entry_setEntry, if_neg h9]
  · intro h
    have := congrArg (entry · 9) h
    exact absurd this (by decide +kernel)

/-- PrgaRoundFollowsItsRule: both cases of the post-swap read. -/
theorem test_witness_post_swap : IsPermutation postSwapI ∧ IsPermutation postSwapJ ∧
    (prgaRound (inKeyed postSwapI 0)).i ≠ (prgaRound (inKeyed postSwapI 0)).j ∧
    sumMod256 [entry (prgaRound (inKeyed postSwapI 0)).sbox 1, entry (prgaRound (inKeyed postSwapI 0)).sbox 3] = 1 ∧
    (prgaRound (inKeyed postSwapJ 0)).i ≠ (prgaRound (inKeyed postSwapJ 0)).j ∧
    sumMod256 [entry (prgaRound (inKeyed postSwapJ 0)).sbox 1, entry (prgaRound (inKeyed postSwapJ 0)).sbox 3] = 3 :=
  ⟨isPermutation_swapEntries (isPermutation_swapEntries isPermutation_identityTable 1 3) 3 254,
    isPermutation_swapEntries (isPermutation_swapEntries isPermutation_identityTable 1 3) 3 0,
    by decide +kernel, by decide +kernel, by decide +kernel, by decide +kernel⟩

/-- DecryptingTheOutputsGivesTheMessage: KSA_RUN on one side and 256 KSA_STEP on the other, from different states. -/
theorem test_witness_decrypt : State.reset.busy = false ∧ (inKsa 1).busy = false ∧ 1 ≤ ([0x01] : List Byte).length ∧
    ([0x01] : List Byte).length ≤ 256 ∧ (List.replicate 256 (0 : Byte)).length ≤ 256 ∧
    ([.ksaRun] = [Instr.ksaRun] ∨ [.ksaRun] = List.replicate 256 Instr.ksaStep) ∧
    (List.replicate 256 Instr.ksaStep = [.ksaRun] ∨ List.replicate 256 Instr.ksaStep = List.replicate 256 .ksaStep) ∧
    ([0x62, 0x63] : List Byte).length = ([0x61, 0x00] : List Byte).length :=
  ⟨rfl, rfl, by decide, by decide, by decide +kernel, .inl rfl, .inr rfl, rfl⟩

theorem test_witness_keyed_permutation : (inKeyed identityTable 0).busy = false ∧ (inKeyed identityTable 0).phase = .keyed ∧
    IsPermutation (inKeyed identityTable 0).sbox := ⟨rfl, rfl, isPermutation_identityTable⟩

/-- AcceptedCommandCompletesWhenItsLatencyEnds: three edges left, with accesses at two of them. -/
theorem test_witness_latency :
    let s : State := { inFlight .ksaStep 3 keyOne with inputs := [Pins.read 3#10, Pins.write 0#10 1#32] }
    s.busy = true ∧ s.left = 2 + 1 ∧ ∀ p ∈ s.inputs.take (2 + 1), p.rst = false := by decide

theorem test_witness_reset : Pins.reset.rst = true ∧ (Pins.mk true true true 0#10 1#32).rst = true ∧
    keyOne.draws = (inKsa 1).draws ∧ State.reset.inputs = [] := by decide

/-- EveryEdgeKeepsTheInvariant: a state with a command in flight that is about to complete. -/
theorem test_witness_invariant : MachineInv (inFlight (.keyPush 7) 1 keyOne) ∧
    ∃ t, step (inFlight (.keyPush 7) 1 keyOne) = .next t ∧ t.klen = 2 :=
  ⟨inv_inFlight settled_keyOne (.inr ⟨rfl, rfl, by decide, by decide⟩) rfl, _, rfl, by decide +kernel⟩

/-- CompletionFrame: every command pending, with KLEN < 256 and R < 255. -/
theorem test_witness_completion : (inFlight .init 1 keyOne).pend = some .init ∧
    (inFlight .nop 1 keyOne).pend = some .nop ∧ (inFlight .errClear 1 keyOne).pend = some .errClear ∧
    (inFlight (.keyPush 7) 1 keyOne).pend = some (.keyPush 7) ∧ (inFlight (.keyPush 7) 1 keyOne).klen.toNat < 256 ∧
    (inFlight .ksaStep 1 (inKsa 254)).pend = some .ksaStep ∧ (inFlight .ksaStep 1 (inKsa 254)).r.toNat < 255 ∧
    (inFlight .ksaRun 1 keyOne).pend = some .ksaRun ∧
    (inFlight (.prgaXor 1) 1 (inKeyed identityTable 0)).pend = some (.prgaXor 1) :=
  ⟨rfl, rfl, rfl, rfl, by decide, rfl, by decide, rfl, rfl⟩

/-- OnlyInitOrResetLeavesKeyed: a pending INIT completes in phase KEYED. -/
theorem test_witness_leaves_keyed : MachineInv (inFlight .init 1 (inKeyed identityTable 0)) ∧
    (inFlight .init 1 (inKeyed identityTable 0)).phase = .keyed ∧
    ∃ t, step (inFlight .init 1 (inKeyed identityTable 0)) = .next t ∧ t.phase ≠ .keyed :=
  ⟨inv_inFlight (settled_inKeyed 0) (.inl rfl) rfl, rfl, _, rfl, by decide +kernel⟩

/-- OnlyTheEngineWritesTheTables: an edge that changes S and one that changes K. -/
theorem test_witness_tables :
    (∃ t, step (inFlight (.prgaXor 0) 1 (inKeyed identityTable 1)) = .next t ∧ entry t.sbox 1 = 2) ∧
    (nextPins (inFlight (.prgaXor 0) 1 (inKeyed identityTable 1))).rst = false ∧ entry identityTable 1 = 1 ∧
    ∃ t, step (inFlight (.keyPush 7) 1 keyOne) = .next t ∧ entry t.key 1 = 7 ∧ entry keyOne.key 1 = 0 :=
  ⟨⟨_, rfl, by decide +kernel⟩, rfl, by decide +kernel, _, rfl, by decide +kernel, by decide +kernel⟩

/-- EveryEdgeDrivesRdata: a read of KEYLEN with BUSY = 0 at the next edge. -/
theorem test_witness_rdata : (present (Pins.read 2#10) keyOne).inputs = Pins.read 2#10 :: [] ∧
    ∃ t, step (present (Pins.read 2#10) keyOne) = .next t ∧ t.rdata = 1 := ⟨rfl, _, rfl, by decide⟩

/-- RegistersChangeOnlyByCompletionAcceptanceOrReset: an acceptance, completions that change KLEN, R and PHASE, and I, J, KS,
DOUT and KSCOUNT, and `we` without `req`. -/
theorem test_witness_registers :
    (∃ t, step (present (issue .init) keyOne) = .next t ∧ t.busy = true ∧ t.pend = some .init ∧ t.klen = 1) ∧
    (∃ t, step (inFlight (.keyPush 7) 1 keyOne) = .next t ∧ t.busy = false ∧ t.klen ≠ keyOne.klen) ∧
    (∃ t, step (inFlight .ksaStep 1 keyOne) = .next t ∧ t.r ≠ keyOne.r ∧ t.phase ≠ keyOne.phase) ∧
    (∃ t, step (inFlight (.prgaXor 0) 1 (inKeyed postSwapI 0)) = .next t ∧ t.i = 1 ∧ t.j = 3 ∧ t.kscount = 1 ∧
      t.ks = 254 ∧ t.dout = 254) ∧
    ∃ t, step (present ⟨false, false, true, 0#10, 1#32⟩ keyOne) = .next t ∧ t.busy = false :=
  ⟨⟨_, rfl, rfl, rfl, rfl⟩, ⟨_, rfl, by decide, by decide⟩, ⟨_, rfl, by decide +kernel, by decide +kernel⟩,
    ⟨_, rfl, by decide +kernel, by decide +kernel, by decide +kernel, by decide +kernel, by decide +kernel⟩, _, rfl, rfl⟩

/-- UnusedKeyBytesAreNeverObservable: two states that differ at K[0] with KLEN = 0. -/
theorem test_witness_unused_key : let t : State := { State.reset with key := setEntry zeroTable 0 0xAA }
    MachineInv State.reset ∧ SameButUnusedKey State.reset t ∧ (∃ u, step State.reset = .next u) ∧ ∃ u, step t = .next u :=
  ⟨inv_of_settled settled_reset rfl rfl rfl,
    ⟨rfl, fun k hk => absurd hk (by show ¬ k.toNat < 0; omega)⟩, ⟨_, rfl⟩, ⟨_, rfl⟩⟩

/-- ReferenceFsmRefinesCompletion: KSA_RUN at R = 254 with a key of three bytes, and PRGA_XOR. -/
theorem test_witness_fsm : let m : RefFsm := ⟨inFlight .ksaRun 1 { inKsa 254 with klen := 3 }, .idle, 0, 0, 0, 0, 0, 2⟩
    m.micro = .idle ∧ m.st.busy = true ∧ m.st.pend = some .ksaRun ∧ setsBusy .ksaRun = true ∧ needsKey .ksaRun = true ∧
    m.st.r.toNat ≤ 255 ∧ 1 ≤ m.st.klen.toNat ∧ m.st.klen.toNat ≤ 256 ∧ m.kidx.toNat = m.st.r.toNat % m.st.klen.toNat ∧
    needsKey (.prgaXor 1) = false ∧ setsBusy (.prgaXor 1) = true := by decide

/-- OnlyAlignedWordAccessesExist: the last register word, and a form of each kind that does not exist. -/
theorem test_witness_access_forms : 0xFFC % 4 = 0 ∧ 0xFFC < 0x1000 ∧ memRead 0xFFC 4 = .ok (Pins.read 0x3FF#10) ∧
    memRead 0 2 = .error (.accessForm 0 2) ∧ memRead 2 4 = .error (.accessForm 2 4) ∧
    memWrite 0x1000 4 0#32 = .error (.accessForm 0x1000 4) := by decide

/-! IdleStatesAreSettled: the three phases are reached from reset. -/

/-- With an idle host a command in flight completes after the edges left. -/
theorem idle_edges_complete (n : Nat) (s : State) (rest : List Pins) (hb : s.busy = true) (hl : s.left = n + 1)
    (hi : s.inputs = List.replicate (n + 1) Pins.idle ++ rest) :
    ∃ x d, runEdges (n + 1) s = .next { complete s with rdata := x, draws := d, inputs := rest } := by
  induction n generalizing s with
  | zero =>
    have hs : step s = .next (complete (nextCycle (dropPins s))) := by
      simp [step, nextPins, hi, clockEdge, accessEdge, hostAccess, Pins.idle, dropPins, hb, engineTick, nextCycle, hl]
    have hc := complete_port s (Config.freeWord s.draws) (s.draws + 1) rest s.left
    have hd : nextCycle (dropPins s) =
        { s with rdata := Config.freeWord s.draws, draws := s.draws + 1, inputs := rest, left := s.left } := by
      simp [nextCycle, dropPins, hi]
    exact ⟨Config.freeWord s.draws, s.draws + 1, by simp only [runEdges, hs, hd, hc]⟩
  | succ n ih =>
    have hs : step s = .next { nextCycle (dropPins s) with left := n + 1 } := by
      simp [step, nextPins, hi, List.replicate_succ, clockEdge, accessEdge, hostAccess, Pins.idle, dropPins, hb,
        engineTick, nextCycle, hl]
    obtain ⟨x, d, h⟩ := ih { nextCycle (dropPins s) with left := n + 1 } hb rfl
      (by simp [nextCycle, dropPins, hi, List.replicate_succ])
    refine ⟨x, d, ?_⟩
    rw [runEdges, hs]
    simp only
    rw [h]
    have hc := complete_port s (Config.freeWord s.draws) (s.draws + 1) s.inputs.tail (n + 1)
    rw [show ({ nextCycle (dropPins s) with left := n + 1 } : State) =
      { s with rdata := Config.freeWord s.draws, draws := s.draws + 1, inputs := s.inputs.tail, left := n + 1 } from rfl, hc]

/-- One command written by the host, then idle edges until it completes. -/
theorem written_command_completes (c : Instr) (s : State) (rest : List Pins) (hc : setsBusy c = true)
    (hb : s.busy = false) (ha : Admitted c s)
    (hi : s.inputs = issue c :: (List.replicate (latency c s.r) Pins.idle ++ rest)) :
    ∃ n x d, runEdges n s = .next
      { effect c s with busy := false, pend := none, left := 0, rdata := x, draws := d, inputs := rest } := by
  obtain ⟨n, hn⟩ : ∃ n, latency c s.r = n + 1 := by
    have hpos : 0 < latency c s.r := by
      cases c <;> first | exact Nat.one_pos | exact PNat.pos _
    exact ⟨latency c s.r - 1, by omega⟩
  have hd : decode (encode c) = .ok c := decode_of_fields _ _ (by simp [encode])
  have he : exec c (nextCycle (dropPins s)) = .next (accept c (nextCycle (dropPins s))) := by
    have hsub := submit_of_admitted (c := c) (s := nextCycle (dropPins s)) hc hb ha
    cases c <;> first | (cases hc; done) | exact congrArg _ hsub
  have hs : step s = .next (accept c (nextCycle (dropPins s))) := by
    have hp : nextPins s = issue c := by simp [nextPins, hi]
    have hw : hostAccess (issue c) (Config.freeWord s.draws) (nextCycle (dropPins s)) =
        cmdWrite (encode c) (nextCycle (dropPins s)) := rfl
    simp [step, hp, clockEdge, accessEdge, show (issue c).rst = false from rfl, hw, cmdWrite,
      hd, he, hb]
  obtain ⟨x, d, h⟩ := idle_edges_complete n (accept c (nextCycle (dropPins s))) rest rfl hn
    (by simp [accept, nextCycle, dropPins, hi, hn])
  refine ⟨1 + (n + 1), x, d, ?_⟩
  rw [Nat.add_comm, runEdges, hs]
  simp only
  rw [h]
  obtain ⟨o, ho⟩ : ∃ o, o = nextCycle (dropPins s) := ⟨_, rfl⟩
  have h1 : o = withUntouched s o := by rw [ho]; rfl
  have h2 : effect c o = withUntouched (effect c s) o := by rw [← effect_withUntouched, ← h1]
  have hu := effect_untouched c s
  simp only [untouched, Prod.mk.injEq] at hu
  rw [← ho, complete_accept, h2, ho]
  simp [withUntouched, nextCycle, dropPins, hu]

/-- The round that makes R = 256 leaves phase KEYED. -/
theorem ksaRounds_phase (n : Nat) (s : State) (h : s.r.toNat + n + 1 = 256) : (ksaRounds (n + 1) s).phase = .keyed := by
  induction n generalizing s with
  | zero =>
    rcases ksaRound_cases s with ⟨a, _⟩ | ⟨_, b⟩
    · exact absurd (BitVec.eq_of_toNat_eq (by rw [BitVec.toNat_add]; simp; omega)) a
    · show (ksaRound s).phase = .keyed
      rw [b]
  | succ n ih =>
    refine ih (ksaRound s) ?_
    rw [ksaRound_r, BitVec.toNat_add]
    simp
    omega

theorem runEdges_add (m n : Nat) (s u : State) (h : runEdges m s = .next u) : runEdges (m + n) s = runEdges n u := by
  induction m generalizing s with
  | zero =>
    obtain rfl : s = u := by simpa [runEdges] using h
    rw [Nat.zero_add]
  | succ m ih =>
    rw [Nat.succ_add, runEdges]
    rw [runEdges] at h
    cases hs : step s with
    | next v => rw [hs] at h; exact ih v h
    | fault f => exact nomatch f
    | refused x => rw [hs] at h; cases h

/-- After a reset edge and idle edges for the implicit INIT, with the coming pins `rest`. -/
theorem reset_then_idle (rest : List Pins) : ∃ s n x d, runEdges n (resetEdge s) =
    .next { complete (resetEdge s) with rdata := x, draws := d, inputs := rest } := by
  obtain ⟨n, hn⟩ : ∃ n, (Config.latResetInit : Nat) = n + 1 :=
    ⟨Config.latResetInit - 1, by have := Config.latResetInit.pos; omega⟩
  obtain ⟨x, d, h⟩ := idle_edges_complete n
    (resetEdge { State.reset with inputs := List.replicate (n + 1) Pins.idle ++ rest }) rest rfl hn rfl
  exact ⟨_, _, x, d, h⟩

/-- READY after the implicit INIT, KSA after one KEY_PUSH and one KSA_STEP, KEYED after KEY_PUSH and KSA_RUN. -/
theorem test_witness_idle_states :
    (∃ s n t, runEdges n (resetEdge s) = .next t ∧ t.busy = false ∧ t.phase = .ready) ∧
    (∃ s n t, runEdges n (resetEdge s) = .next t ∧ t.busy = false ∧ t.phase = .ksa) ∧
    ∃ s n t, runEdges n (resetEdge s) = .next t ∧ t.busy = false ∧ t.phase = .keyed := by
  have two : ∀ c : Instr, c = .ksaStep ∨ c = .ksaRun → ∃ s n t, runEdges n (resetEdge s) = .next t ∧
      t.busy = false ∧ ∃ u : State, u.r = 0 ∧ u.phase = .ready ∧ t.phase = (effect c u).phase := by
    intro c hc
    have hs : setsBusy c = true := by rcases hc with rfl | rfl <;> rfl
    obtain ⟨s, k, z, f, hk⟩ := reset_then_idle (issue (.keyPush 1) ::
      (List.replicate (latency (.keyPush 1) 0) Pins.idle ++ issue c :: (List.replicate (latency c 0) Pins.idle ++ [])))
    obtain ⟨m, x, d, hm⟩ := written_command_completes (.keyPush 1) { complete (resetEdge s) with
        rdata := z, draws := f
        inputs := issue (.keyPush 1) :: (List.replicate (latency (.keyPush 1) 0) Pins.idle ++
          issue c :: (List.replicate (latency c 0) Pins.idle ++ [])) }
      _ rfl rfl ⟨rfl, rfl, fun h => by simp [needsKey] at h, fun _ => show (0#9) ≠ 256#9 by decide⟩ rfl
    obtain ⟨n, y, e, hn⟩ := written_command_completes c _ [] hs rfl
      ⟨hs, by rcases hc with rfl | rfl <;> rfl, fun _ => show (0#9 + 1) ≠ 0#9 by decide,
        by rcases hc with rfl | rfl <;> simp [appendsKey]⟩
      (show State.inputs { effect (.keyPush 1) (complete (resetEdge s)) with
        busy := false, pend := none, left := 0, rdata := x, draws := d,
        inputs := issue c :: (List.replicate (latency c 0) Pins.idle ++ []) } = _ from rfl)
    exact ⟨s, k + (m + n), _, (runEdges_add k _ _ _ hk).trans ((runEdges_add m n _ _ hm).trans hn), rfl, _, rfl, rfl, rfl⟩
  refine ⟨?_, ?_, ?_⟩
  · obtain ⟨s, n, x, d, h⟩ := reset_then_idle []
    exact ⟨s, n, _, h, rfl, rfl⟩
  · obtain ⟨s, n, t, h1, h2, u, h3, h4, h5⟩ := two .ksaStep (.inl rfl)
    refine ⟨s, n, t, h1, h2, h5.trans ?_⟩
    rcases ksaStepEffect_cases u with ⟨_, b⟩ | ⟨a, _⟩
    · exact congrArg State.phase b
    · exact absurd (by rw [ksaRound_r, h3]; decide) a
  · obtain ⟨s, n, t, h1, h2, u, h3, h4, h5⟩ := two .ksaRun (.inr rfl)
    refine ⟨s, n, t, h1, h2, h5.trans ?_⟩
    simp only [effect, ksaRunEffect, h3]
    exact ksaRounds_phase 255 u (by rw [h3]; rfl)

end Sys2Proof.Tests
end

section
/-! PROOFS. What one edge does: to ERR by the access (10_state.md R32), to the engine, and to a command in flight until it
completes (R31). -/

namespace Sys2Proof.Machine

/-! ### What the access of one edge does -/

/-- Every command write answers a next state (R205, R207). -/
theorem exec_answers (c : Instr) (s : State) : ∃ t, exec c s = .next t := by
  cases c <;> exact ⟨_, rfl⟩

/-- Every host access answers a next state (R205, R207). -/
theorem hostAccess_answers (p : Pins) (free : Word) (s : State) : ∃ t, hostAccess p free s = .next t := by
  unfold hostAccess
  split
  · exact ⟨_, rfl⟩
  · unfold portWrite
    split
    · unfold cmdWrite
      split
      · exact ⟨_, rfl⟩
      · exact exec_answers _ s
    · exact ⟨_, rfl⟩
  · exact ⟨_, rfl⟩

/-- Every edge answers a next state (R205, R207). -/
theorem step_answers (s : State) : ∃ t, step s = .next t := by
  obtain ⟨u, hu⟩ := hostAccess_answers (nextPins s) (Config.freeWord s.draws) (nextCycle (dropPins s))
  unfold step clockEdge
  split
  · exact ⟨_, rfl⟩
  · exact ⟨_, by rw [accessEdge, dropPins_draws, hu]⟩

/-- The value that the write of `w` to CMD gives ERR, when it gives one: 0 for ERR_CLEAR, ILLEGAL for a word that is no
command, the failed check's code for a command that sets BUSY (R200, R201). -/
inductive ErrWritten (w : Word) (s : State) : BitVec 4 → Prop
  | cleared (hd : decode w = .ok .errClear) : ErrWritten w s 0
  | illegal {x : Illegal} (hd : decode w = .error x) : ErrWritten w s (errValue .illegal)
  | rejected {c : Instr} {code : ErrCode} (hd : decode w = .ok c) (hc : setsBusy c = true)
      (hr : rejectionOf c s = some code) : ErrWritten w s (errValue code)

theorem cmdWrite_err {w : Word} {s t : State} (h : cmdWrite w s = .next t) :
    t.err = s.err ∨ ErrWritten w s t.err := by
  unfold cmdWrite at h
  split at h
  · rename_i hd
    cases h
    exact .inr (.illegal hd)
  · rename_i c hd
    rcases exec_cases h with ⟨-, rfl⟩ | ⟨rfl, rfl⟩ | ⟨hc, code, hr, rfl⟩ | ⟨-, -, rfl⟩
    · exact .inl rfl
    · exact .inr (.cleared hd)
    · exact .inr (.rejected hd hc hr)
    · exact .inl rfl

/-- An access keeps ERR, or is a write to CMD that gives ERR its value. -/
theorem hostAccess_err {p : Pins} {free : Word} {s t : State} (h : hostAccess p free s = .next t) :
    t.err = s.err ∨ (p.req = true ∧ p.we = true ∧ p.waddr = 0#10 ∧ ErrWritten p.wdata s t.err) := by
  unfold hostAccess at h
  split at h
  · cases h
    exact .inl rfl
  · rename_i hreq hwe
    unfold portWrite at h
    split at h
    · rename_i ha
      exact (cmdWrite_err h).imp_right fun he => ⟨hreq, hwe, regAt_eq_cmd ha, he⟩
    · cases h
      exact .inl rfl
  · cases h
    exact .inl rfl

/-- The code of a failed check is one of R201's 2 to 5. -/
theorem errValue_of_rejection {c : Instr} {s : State} {code : ErrCode} (h : rejectionOf c s = some code) :
    1 ≤ (errValue code).toNat ∧ (errValue code).toNat ≤ 5 := by
  unfold rejectionOf at h
  split_ifs at h <;> cases h <;> decide

theorem ErrWritten.le_five {w : Word} {s : State} {e : BitVec 4} (h : ErrWritten w s e) : e.toNat ≤ 5 := by
  cases h with
  | cleared => decide
  | illegal => decide
  | rejected _ _ hr => exact (errValue_of_rejection hr).2

/-! ### What one edge does to the engine and to the port -/

/-- The completion depends on the fields that no effect touches through PEND alone, and passes them on. -/
theorem complete_withUntouched {s o : State} (h : o.pend = s.pend) :
    complete (withUntouched s o) =
      { complete s with err := o.err, rdata := o.rdata, inputs := o.inputs, draws := o.draws } := by
  have hq : (withUntouched s o).pend = s.pend := h
  cases hp : s.pend with
  | none =>
    simp only [complete, pendEffect, hq, hp]
    rfl
  | some c =>
    rw [complete_of_pend hp, complete_of_pend (hq.trans hp), effect_withUntouched]
    rfl

/-- The port's side of an edge: ERR and `rdata` are what the access left, the pins are used up and a free value is drawn. -/
def afterEdge (e : BitVec 4) (x : Word) (s : State) : State :=
  { s with err := e, rdata := x, inputs := s.inputs.tail, draws := s.draws + 1 }

@[simp] theorem engineRegs_afterEdge (e : BitVec 4) (x : Word) (s : State) :
    engineRegs (afterEdge e x s) = engineRegs s := rfl

theorem complete_afterEdge (e : BitVec 4) (x : Word) (s : State) :
    complete (afterEdge e x s) = afterEdge e x (complete s) := by
  have h := complete_withUntouched (s := s) (o := afterEdge e x s) rfl
  rw [show withUntouched s (afterEdge e x s) = afterEdge e x s from rfl] at h
  rw [h]
  simp [afterEdge]

/-- What a completion makes of the registers does not depend on the countdown. -/
theorem engineRegs_complete_left (s : State) (n : Nat) :
    engineRegs (complete { s with left := n }) = engineRegs (complete s) :=
  (congrArg engineRegs (complete_port s s.rdata s.draws s.inputs n)).trans rfl

/-- The engine's side of an edge with `rst` = 0 (R31, R51): it stays idle, accepts the command that the host writes,
waits, or completes the command in flight. -/
inductive EngineMove (s : State) : State → Prop
  | stays (hb : s.busy = false) : EngineMove s s
  | accepts {c : Instr} (hreq : (nextPins s).req = true) (hwe : (nextPins s).we = true) (ha : (nextPins s).waddr = 0#10)
      (hd : decode (nextPins s).wdata = .ok c) (hc : setsBusy c = true) (hr : rejectionOf c s = none) :
      EngineMove s (accept c s)
  | waits (hb : s.busy = true) (hl : 1 < s.left) : EngineMove s { s with left := s.left - 1 }
  | completes (hb : s.busy = true) (hl : s.left ≤ 1) : EngineMove s (complete s)

/-- An edge with `rst` = 0 is one access, then the engine if a command was in flight (R51). -/
theorem step_access {s t : State} (h : step s = .next t) (hrst : (nextPins s).rst = false) :
    ∃ u, hostAccess (nextPins s) (Config.freeWord s.draws) (nextCycle (dropPins s)) = .next u ∧
      t = if s.busy then engineTick u else u := by
  rcases step_cases h with ⟨hr, -⟩ | ⟨-, hu⟩
  · exact absurd (hr.symm.trans hrst) (by decide)
  · exact hu

/-- An edge with `rst` = 0 is a move of the engine beside the port's next cycle. -/
theorem step_move {s t : State} (h : step s = .next t) (hrst : (nextPins s).rst = false) :
    ∃ v e x, EngineMove s v ∧ t = afterEdge e x v := by
  obtain ⟨u, hu, rfl⟩ := step_access h hrst
  cases hb : s.busy with
  | false =>
    rcases hostAccess_changes hu with ⟨e, x, rfl⟩ | ⟨hreq, hwe, ha, c, hd, hc, hr, rfl⟩
    · exact ⟨s, e, x, .stays hb, rfl⟩
    · exact ⟨_, s.err, Config.freeWord s.draws, .accepts hreq hwe ha hd hc hr, rfl⟩
  | true =>
    obtain ⟨e, x, rfl⟩ := hostAccess_busy (s := nextCycle (dropPins s)) hb hu
    rcases engineTick_cases (afterEdge e x s) with ⟨hl, ht⟩ | ⟨hl, ht⟩
    · exact ⟨_, e, x, .completes hb hl, ht.trans (complete_afterEdge e x s)⟩
    · exact ⟨_, e, x, .waits hb hl, ht⟩

theorem engineTick_err (s : State) : (engineTick s).err = s.err := by
  rcases engineTick_cases s with ⟨-, h⟩ | ⟨-, h⟩ <;> rw [h]
  simp

/-- An edge with `rst` = 0 keeps ERR, or is a write to CMD that gives ERR its value. -/
theorem step_err {s t : State} (h : step s = .next t) (hrst : (nextPins s).rst = false) :
    t.err = s.err ∨ ((nextPins s).req = true ∧ (nextPins s).we = true ∧ (nextPins s).waddr = 0#10 ∧
      ErrWritten (nextPins s).wdata (nextCycle (dropPins s)) t.err) := by
  obtain ⟨u, hu, rfl⟩ := step_access h hrst
  have he : (if s.busy then engineTick u else u).err = u.err := by
    split
    · exact engineTick_err u
    · rfl
  rw [he]
  exact hostAccess_err hu

/-- Settles O12: only a write to CMD gives ERR a value at an edge with `rst` = 0, and `ErrWritten` lists the values. -/
theorem errChangesOnlyByRejectionClearOrReset : Obligations.ErrChangesOnlyByRejectionClearOrReset := by
  intro s t h hne
  rcases step_cases h with ⟨hr, rfl⟩ | ⟨hr, -⟩
  · exact .inl ⟨hr, rfl⟩
  · obtain ⟨hreq, hwe, ha, hw⟩ := (step_err h hr).resolve_left hne
    refine .inr ⟨hr, hreq, hwe, ha, ?_⟩
    generalize t.err = e at hw
    cases hw with
    | cleared hd => exact .inl ⟨hd, rfl⟩
    | illegal hd => exact .inr ⟨by simp [hd], by decide, by decide, .inl ⟨⟨_, hd⟩, rfl⟩⟩
    | @rejected c code hd hc hcode =>
      obtain ⟨hlo, hhi⟩ := errValue_of_rejection hcode
      have hclear : c ≠ .errClear := by
        rintro rfl
        cases hc
      exact .inr ⟨by simpa [hd] using hclear, hlo, hhi, .inr ⟨c, code, hd, hc, hcode, rfl⟩⟩

/-! ### The edges of a command in flight -/

/-- Without `rst` = 1 among the next `n + 1` settings of the pins, there is none at this edge or at the `n` after it. -/
theorem rst_false_of_take {s : State} {n : Nat} (h : ∀ p ∈ s.inputs.take (n + 1), p.rst = false) :
    (nextPins s).rst = false ∧ ∀ p ∈ s.inputs.tail.take n, p.rst = false := by
  unfold nextPins
  cases hi : s.inputs with
  | nil => exact ⟨rfl, by simp⟩
  | cons q rest => simpa [hi] using h

theorem step_completes {s : State} (hb : s.busy = true) (hl : s.left ≤ 1) (hrst : (nextPins s).rst = false) :
    ∃ e x, step s = .next (afterEdge e x (complete s)) := by
  obtain ⟨t, ht⟩ := step_answers s
  obtain ⟨v, e, x, hm, rfl⟩ := step_move ht hrst
  cases hm with
  | completes => exact ⟨e, x, ht⟩
  | stays hb' => simp [hb] at hb'
  | accepts _ _ _ _ _ hr => simp [rejectionOf_busy _ hb] at hr
  | waits _ hl' => omega

theorem step_waits {s : State} (hb : s.busy = true) (hl : 1 < s.left) (hrst : (nextPins s).rst = false) :
    ∃ e x, step s = .next (afterEdge e x { s with left := s.left - 1 }) := by
  obtain ⟨t, ht⟩ := step_answers s
  obtain ⟨v, e, x, hm, rfl⟩ := step_move ht hrst
  cases hm with
  | waits => exact ⟨e, x, ht⟩
  | stays hb' => simp [hb] at hb'
  | accepts _ _ _ _ _ hr => simp [rejectionOf_busy _ hb] at hr
  | completes _ hl' => omega

theorem runEdges_succ {s t : State} (h : step s = .next t) (n : Nat) : runEdges (n + 1) s = runEdges n t := by
  rw [runEdges, h]

/-- Settles O35, by induction on the edges left: each edge but the last waits, the last completes. -/
theorem acceptedCommandCompletesWhenItsLatencyEnds : Obligations.AcceptedCommandCompletesWhenItsLatencyEnds := by
  intro s n hb hl hp
  induction n generalizing s with
  | zero =>
    obtain ⟨e, x, hs⟩ := step_completes hb (by omega) (rst_false_of_take hp).1
    refine ⟨fun k hk => ?_, _, runEdges_succ hs 0, rfl, rfl, rfl⟩
    obtain rfl : k = 0 := by omega
    exact ⟨s, rfl, hb, rfl, rfl⟩
  | succ n ih =>
    obtain ⟨hrst, htail⟩ := rst_false_of_take hp
    obtain ⟨e, x, hs⟩ := step_waits hb (by omega) hrst
    obtain ⟨hbefore, t, ht, htb, htp, htr⟩ := ih (afterEdge e x { s with left := s.left - 1 }) hb
      (by simp [afterEdge, hl]) htail
    refine ⟨fun k hk => ?_, t, (runEdges_succ hs _).trans ht, htb, htp, htr.trans ?_⟩
    · cases k with
      | zero => exact ⟨s, rfl, hb, rfl, rfl⟩
      | succ k =>
        rw [runEdges_succ hs]
        exact hbefore k (by omega)
    · rw [complete_afterEdge, engineRegs_afterEdge]
      exact engineRegs_complete_left s _

end Sys2Proof.Machine
end

section
/-! PROOFS. R34's table: which register each completion, and so each edge, may write. -/

namespace Sys2Proof.Machine

/-! ### What each command's completion changes -/

@[simp] theorem effect_nop (s : State) : effect .nop s = s := rfl
@[simp] theorem effect_errClear (s : State) : effect .errClear s = s := rfl
@[simp] theorem effect_init (s : State) : effect .init s = initEffect s := rfl
@[simp] theorem effect_keyPush (b : Byte) (s : State) : effect (.keyPush b) s = keyPushEffect b s := rfl
@[simp] theorem effect_ksaStep (s : State) : effect .ksaStep s = ksaStepEffect s := rfl
@[simp] theorem effect_ksaRun (s : State) : effect .ksaRun s = ksaRunEffect s := rfl
@[simp] theorem effect_prgaXor (m : Byte) (s : State) : effect (.prgaXor m) s = prgaXorEffect m s := rfl

@[simp] theorem ksaStepEffect_sbox (s : State) : (ksaStepEffect s).sbox = (ksaRound s).sbox :=
  (ksaStepEffect_frame s).1

@[simp] theorem ksaStepEffect_r (s : State) : (ksaStepEffect s).r = s.r + 1 :=
  (ksaStepEffect_frame s).2.1

@[simp] theorem ksaStepEffect_key (s : State) : (ksaStepEffect s).key = s.key := by
  obtain ⟨-, -, h, -⟩ := ksaStepEffect_frame s
  exact h

@[simp] theorem ksaStepEffect_klen (s : State) : (ksaStepEffect s).klen = s.klen := by
  obtain ⟨-, -, -, h, -⟩ := ksaStepEffect_frame s
  exact h

@[simp] theorem ksaStepEffect_ks (s : State) : (ksaStepEffect s).ks = s.ks := by
  obtain ⟨-, -, -, -, h, -⟩ := ksaStepEffect_frame s
  exact h

@[simp] theorem ksaStepEffect_dout (s : State) : (ksaStepEffect s).dout = s.dout := by
  obtain ⟨-, -, -, -, -, h, -⟩ := ksaStepEffect_frame s
  exact h

@[simp] theorem ksaRunEffect_key (s : State) : (ksaRunEffect s).key = s.key :=
  (ksaRounds_frame _ s).1

@[simp] theorem ksaRunEffect_klen (s : State) : (ksaRunEffect s).klen = s.klen :=
  (ksaRounds_frame _ s).2.1

@[simp] theorem ksaRunEffect_ks (s : State) : (ksaRunEffect s).ks = s.ks := by
  obtain ⟨-, -, h, -⟩ := ksaRounds_frame (256 - s.r.toNat) s
  exact h

@[simp] theorem ksaRunEffect_dout (s : State) : (ksaRunEffect s).dout = s.dout := by
  obtain ⟨-, -, -, h, -⟩ := ksaRounds_frame (256 - s.r.toNat) s
  exact h

/-- R and KLEN count up without wrapping while they are at most 255. -/
theorem toNat_add_one {x : BitVec 9} (h : x.toNat ≤ 255) : (x + 1).toNat = x.toNat + 1 := by
  bv_omega

/-- Before round 255 a round leaves I, KSCOUNT and PHASE (R130). -/
theorem ksaRound_before_last {s : State} (h : s.r.toNat < 255) :
    (ksaRound s).i = s.i ∧ (ksaRound s).kscount = s.kscount ∧ (ksaRound s).phase = s.phase := by
  rcases ksaRound_cases s with ⟨-, hs⟩ | ⟨hr, -⟩
  · rw [hs]
    exact ⟨rfl, rfl, rfl⟩
  · have h256 := congrArg BitVec.toNat hr
    rw [toNat_add_one (by omega)] at h256
    simp at h256
    omega

/-- Round 255 finishes the KSA (R131). -/
theorem ksaRound_last_phase {s : State} (h : s.r.toNat = 255) : (ksaRound s).phase = .keyed := by
  rcases ksaRound_cases s with ⟨hr, -⟩ | ⟨-, hs⟩
  · exact absurd (BitVec.eq_of_toNat_eq (by rw [toNat_add_one (by omega), h]; rfl)) hr
  · rw [hs]

theorem ksaStepEffect_before_last {s : State} (h : s.r.toNat < 255) :
    (ksaStepEffect s).i = s.i ∧ (ksaStepEffect s).kscount = s.kscount ∧ (ksaStepEffect s).phase = .ksa := by
  obtain ⟨hi, hk, -⟩ := ksaRound_before_last h
  rcases ksaStepEffect_cases s with ⟨-, hs⟩ | ⟨hr, -⟩
  · rw [hs]
    exact ⟨hi, hk, rfl⟩
  · refine absurd ?_ hr
    rw [ksaRound_r, BitVec.lt_def, toNat_add_one (by omega)]
    simp
    omega

theorem ksaStepEffect_last_phase {s : State} (h : s.r.toNat = 255) : (ksaStepEffect s).phase = .keyed := by
  rcases ksaStepEffect_cases s with ⟨hr, -⟩ | ⟨-, hs⟩
  · rw [ksaRound_r, BitVec.lt_def, toNat_add_one (by omega), h] at hr
    simp at hr
  · rw [hs, ksaRound_last_phase h]

/-- Settles O43, one case for each command. -/
theorem completionFrame : Obligations.CompletionFrame := by
  intro s c hp
  have hc : pendEffect s = effect c s := by simp only [pendEffect, hp]
  refine ⟨by simp, by simp, by simp, by simp, rfl, rfl, ?_⟩
  cases c with
  | nop => simp [engineRegs, hc]
  | errClear => simp [engineRegs, hc]
  | init => simp [hc]
  | keyPush b =>
    refine ⟨by simp [engineRegs, hc], fun hk k hne => ?_⟩
    have hidx : k ≠ pushIndex s.klen := by
      rintro rfl
      exact hne (pushIndex_toNat hk)
    simp [hc, entry_setEntry, hidx]
  | ksaStep =>
    refine ⟨by simp [hc], by simp [hc], by simp [hc], by simp [hc], by simp [hc], fun hr => ?_⟩
    simpa [hc] using ksaStepEffect_before_last hr
  | ksaRun => simp [hc]
  | prgaXor m => simp [hc]

/-- R34's table, by register: which commands in flight in `s` may have written the registers in which `t` differs
from `s`. -/
structure WritesAsTabled (s t : State) : Prop where
  sbox : t.sbox ≠ s.sbox →
    s.pend = some .init ∨ s.pend = some .ksaStep ∨ s.pend = some .ksaRun ∨ ∃ m, s.pend = some (.prgaXor m)
  key : t.key ≠ s.key → ∃ b, s.pend = some (.keyPush b)
  klen : t.klen ≠ s.klen → s.pend = some .init ∨ ∃ b, s.pend = some (.keyPush b)
  round : t.r ≠ s.r ∨ t.phase ≠ s.phase → s.pend = some .init ∨ s.pend = some .ksaStep ∨ s.pend = some .ksaRun
  index : t.i ≠ s.i ∨ t.j ≠ s.j ∨ t.kscount ≠ s.kscount →
    s.pend = some .init ∨ s.pend = some .ksaStep ∨ s.pend = some .ksaRun ∨ ∃ m, s.pend = some (.prgaXor m)
  output : t.ks ≠ s.ks ∨ t.dout ≠ s.dout → s.pend = some .init ∨ ∃ m, s.pend = some (.prgaXor m)

theorem writesAsTabled_complete (s : State) : WritesAsTabled s (complete s) := by
  cases hp : s.pend with
  | none => constructor <;> simp [pendEffect, hp]
  | some c => cases c <;> constructor <;> simp [pendEffect, hp]

/-- A move of the engine that is no completion leaves every register. -/
theorem EngineMove.engineRegs_eq_or_completes {s v : State} (h : EngineMove s v) :
    engineRegs v = engineRegs s ∨ (s.busy = true ∧ s.left ≤ 1 ∧ v = complete s) := by
  cases h with
  | stays => exact .inl rfl
  | accepts => exact .inl rfl
  | waits => exact .inl rfl
  | completes hb hl => exact .inr ⟨hb, hl, rfl⟩

/-- An edge with `rst` = 0 leaves every register, or is a completion. -/
theorem step_engineRegs {s t : State} (h : step s = .next t) (hrst : (nextPins s).rst = false) :
    engineRegs t = engineRegs s ∨
      (s.busy = true ∧ s.left ≤ 1 ∧ t.busy = false ∧ engineRegs t = engineRegs (complete s)) := by
  obtain ⟨v, e, x, hm, rfl⟩ := step_move h hrst
  exact hm.engineRegs_eq_or_completes.imp_right fun ⟨hb, hl, hv⟩ => ⟨hb, hl, by rw [hv]; rfl, by rw [hv]; rfl⟩

theorem writesAsTabled_refl (s : State) : WritesAsTabled s s := by
  constructor <;> simp

/-- The table is about the registers of the later state alone. -/
theorem WritesAsTabled.of_engineRegs {s t u : State} (hw : WritesAsTabled s u) (h : engineRegs t = engineRegs u) :
    WritesAsTabled s t := by
  simp only [engineRegs, Prod.mk.injEq] at h
  obtain ⟨hsbox, hkey, hklen, hr, hi, hj, hks, hdout, hkscount, hphase⟩ := h
  obtain ⟨wsbox, wkey, wklen, wround, windex, woutput⟩ := hw
  constructor <;> simpa only [*]

theorem writesAsTabled_of_step {s t : State} (h : step s = .next t) (hrst : (nextPins s).rst = false) :
    WritesAsTabled s t := by
  rcases step_engineRegs h hrst with he | ⟨-, -, -, he⟩
  · exact (writesAsTabled_refl s).of_engineRegs he
  · exact (writesAsTabled_complete s).of_engineRegs he

/-- Settles O45: a table that changes was written by the completion, and by a command that R34's table names. -/
theorem onlyTheEngineWritesTheTables : Obligations.OnlyTheEngineWritesTheTables := by
  intro s t h hrst
  have hw := writesAsTabled_of_step h hrst
  refine ⟨fun hne => ?_, fun hne => ?_⟩
  · obtain ⟨hb, hl, -⟩ := (step_engineRegs h hrst).resolve_left fun he => hne (congrArg (·.1) he)
    exact ⟨hb, hl, hw.sbox hne⟩
  · obtain ⟨hb, hl, -⟩ := (step_engineRegs h hrst).resolve_left fun he => hne (congrArg (·.2.1) he)
    exact ⟨hb, hl, hw.key hne⟩

/-- BUSY and PEND change by a completion or by an acceptance (R31, R51). -/
theorem step_busy_pend {s t : State} (h : step s = .next t) (hrst : (nextPins s).rst = false)
    (hne : t.busy ≠ s.busy ∨ t.pend ≠ s.pend) :
    (s.busy = true ∧ s.left ≤ 1 ∧ t.busy = false ∧ t.pend = none) ∨
      (s.busy = false ∧ (nextPins s).req = true ∧ (nextPins s).we = true ∧ (nextPins s).waddr = 0#10 ∧
        ∃ c, decode (nextPins s).wdata = .ok c ∧ setsBusy c = true ∧ rejectionOf c s = none ∧
          t.busy = true ∧ t.pend = some c) := by
  obtain ⟨v, e, x, hm, rfl⟩ := step_move h hrst
  cases hm with
  | stays => simp [afterEdge] at hne
  | waits => simp [afterEdge] at hne
  | completes hb hl => exact .inl ⟨hb, hl, rfl, rfl⟩
  | accepts hreq hwe ha hd hc hr =>
    exact .inr ⟨((rejectionOf_eq_none_iff _ s hc).1 hr).1, hreq, hwe, ha, _, hd, hc, hr, rfl, rfl⟩

/-- Settles O52, from what an edge does to BUSY and PEND and from R34's table by register. -/
theorem registersChangeOnlyByCompletionAcceptanceOrReset :
    Obligations.RegistersChangeOnlyByCompletionAcceptanceOrReset := by
  intro s t h hrst
  have hw := writesAsTabled_of_step h hrst
  exact ⟨step_busy_pend h hrst, fun hne => (step_engineRegs h hrst).resolve_left hne, hw.klen, hw.round,
    hw.index, hw.output⟩

end Sys2Proof.Machine
end

section
/-! PROOFS. The invariant of every run (10_state.md R22, R35), the key bytes that no read shows (R23), and the reset
state (R37). -/

namespace Sys2Proof.Machine

/-! ### Every completion settles -/

/-- The commands that need a key are not admitted in KEYED (R202). -/
theorem phaseOk_of_needsKey {c : Instr} {p : Phase} (hc : needsKey c = true) (h : phaseOk c p = true) : p ≠ .keyed := by
  rintro rfl
  cases c <;> simp_all [needsKey, phaseOk]

theorem phaseFacts_ready {s : State} (h : s.phase = .ready) : PhaseFacts s ↔
    s.r = 0 ∧ s.i = 0 ∧ s.j = 0 ∧ s.ks = 0 ∧ s.dout = 0 ∧ s.kscount = 0 ∧ s.sbox = identityTable := by
  simp [PhaseFacts, h]

theorem phaseFacts_ksa {s : State} (h : s.phase = .ksa) : PhaseFacts s ↔
    1 ≤ s.r.toNat ∧ s.r.toNat ≤ 255 ∧ 1 ≤ s.klen.toNat ∧ s.i = 0 := by
  simp [PhaseFacts, h]

theorem phaseFacts_keyed {s : State} (h : s.phase = .keyed) : PhaseFacts s ↔ s.r = 256 ∧ 1 ≤ s.klen.toNat := by
  simp [PhaseFacts, h]

/-- Before the KSA has ended, rounds are left and I is 0 (R35). -/
theorem Settled.round_of_not_keyed {s : State} (h : Settled s) (hp : s.phase ≠ .keyed) : s.r.toNat ≤ 255 ∧ s.i = 0 := by
  obtain ⟨-, -, hf⟩ := h
  cases hph : s.phase with
  | ready =>
    obtain ⟨hr, hi, -⟩ := (phaseFacts_ready hph).1 hf
    exact ⟨by simp [hr], hi⟩
  | ksa =>
    obtain ⟨-, hr, -, hi⟩ := (phaseFacts_ksa hph).1 hf
    exact ⟨hr, hi⟩
  | keyed => exact absurd hph hp

/-- A command that needs a key is admitted only with rounds left, I = 0 and a key (R130, R202). -/
theorem Settled.round_of_needsKey {s : State} {c : Instr} (h : Settled s) (hc : needsKey c = true) (ha : Admitted c s) :
    s.r.toNat ≤ 255 ∧ s.i = 0 ∧ 1 ≤ s.klen.toNat := by
  obtain ⟨-, hphase, hkey, -⟩ := ha
  obtain ⟨hr, hi⟩ := h.round_of_not_keyed (phaseOk_of_needsKey hc hphase)
  have hne : s.klen.toNat ≠ 0 := fun e => hkey hc (BitVec.eq_of_toNat_eq e)
  exact ⟨hr, hi, by omega⟩

theorem isPermutation_ksaRound {s : State} (h : IsPermutation s.sbox) : IsPermutation (ksaRound s).sbox := by
  rw [ksaRound_sbox]
  exact isPermutation_swapEntries h _ _

/-- Running the rounds left ends the KSA with R = 256 on a permutation (R22, R131, R133). -/
theorem ksaRounds_to_last {n : Nat} {s : State} (hr : s.r.toNat + n = 255) (h : IsPermutation s.sbox) :
    (ksaRounds (n + 1) s).phase = .keyed ∧ (ksaRounds (n + 1) s).r = 256 ∧ IsPermutation (ksaRounds (n + 1) s).sbox := by
  induction n generalizing s with
  | zero =>
    refine ⟨ksaRound_last_phase hr, ?_, isPermutation_ksaRound h⟩
    show (ksaRound s).r = 256
    rw [ksaRound_r]
    exact BitVec.eq_of_toNat_eq (by rw [toNat_add_one (by omega)]; simp; omega)
  | succ n ih =>
    refine ih (s := ksaRound s) ?_ (isPermutation_ksaRound h)
    rw [ksaRound_r, toNat_add_one (by omega)]
    omega

theorem settled_initEffect (s : State) : Settled (initEffect s) :=
  ⟨isPermutation_identityTable, Nat.zero_le _, (phaseFacts_ready rfl).2 ⟨rfl, rfl, rfl, rfl, rfl, rfl, rfl⟩⟩

theorem settled_keyPushEffect {b : Byte} {s : State} (h : Settled s) (ha : Admitted (.keyPush b) s) :
    s.klen.toNat < 256 ∧ Settled (keyPushEffect b s) := by
  obtain ⟨hperm, hklen, hf⟩ := h
  obtain ⟨-, hphase, -, hfull⟩ := ha
  have hready : s.phase = .ready := by
    cases hp : s.phase <;> simp_all [phaseOk]
  have hlt : s.klen.toNat < 256 := by
    have hne : s.klen.toNat ≠ 256 := fun e => hfull rfl (BitVec.eq_of_toNat_eq e)
    omega
  refine ⟨hlt, hperm, ?_, (phaseFacts_ready (s := keyPushEffect b s) hready).2 ((phaseFacts_ready hready).1 hf)⟩
  rw [keyPushEffect_klen, toNat_add_one (by omega)]
  omega

theorem settled_ksaStepEffect {s : State} (h : Settled s) (ha : Admitted .ksaStep s) : Settled (ksaStepEffect s) := by
  obtain ⟨hr, hi, hkey⟩ := h.round_of_needsKey rfl ha
  obtain ⟨hperm, hklen, -⟩ := h
  refine ⟨?_, by rwa [ksaStepEffect_klen], ?_⟩
  · rw [ksaStepEffect_sbox]
    exact isPermutation_ksaRound hperm
  · have hr' : (ksaStepEffect s).r.toNat = s.r.toNat + 1 := by rw [ksaStepEffect_r, toNat_add_one hr]
    rcases Nat.lt_or_eq_of_le hr with hlt | hlast
    · obtain ⟨hi', -, hp⟩ := ksaStepEffect_before_last hlt
      exact (phaseFacts_ksa hp).2 ⟨by omega, by omega, by rwa [ksaStepEffect_klen], hi'.trans hi⟩
    · refine (phaseFacts_keyed (ksaStepEffect_last_phase hlast)).2 ⟨?_, by rwa [ksaStepEffect_klen]⟩
      exact BitVec.eq_of_toNat_eq (by rw [hr', hlast]; rfl)

theorem settled_ksaRunEffect {s : State} (h : Settled s) (ha : Admitted .ksaRun s) : Settled (ksaRunEffect s) := by
  obtain ⟨hr, -, hkey⟩ := h.round_of_needsKey rfl ha
  obtain ⟨hperm, hklen, -⟩ := h
  have hrun : ksaRunEffect s = ksaRounds ((255 - s.r.toNat) + 1) s := by
    rw [ksaRunEffect]
    congr 1
    omega
  obtain ⟨hp, hr', hperm'⟩ := ksaRounds_to_last (n := 255 - s.r.toNat) (by omega) hperm
  rw [← hrun] at hp hr' hperm'
  exact ⟨hperm', by rwa [ksaRunEffect_klen], (phaseFacts_keyed hp).2 ⟨hr', by rwa [ksaRunEffect_klen]⟩⟩

theorem settled_prgaXorEffect {m : Byte} {s : State} (h : Settled s) (ha : Admitted (.prgaXor m) s) :
    Settled (prgaXorEffect m s) := by
  obtain ⟨hperm, hklen, hf⟩ := h
  obtain ⟨-, hphase, -⟩ := ha
  have hkeyed : s.phase = .keyed := by
    cases hp : s.phase <;> simp_all [phaseOk]
  refine ⟨?_, hklen, (phaseFacts_keyed (s := prgaXorEffect m s) hkeyed).2 ((phaseFacts_keyed hkeyed).1 hf)⟩
  rw [prgaXorEffect_sbox, prgaRound_sbox]
  exact isPermutation_swapEntries hperm _ _

/-- What the invariant says of a command in flight: it is INIT, or was admitted in a settled state. -/
def WellPending (c : Instr) (s : State) : Prop := c = .init ∨ (Settled s ∧ Admitted c s)

/-- The effect of a command that was admitted in a settled state settles again (R22, R35). -/
theorem settled_effect {c : Instr} {s : State} (h : WellPending c s) : Settled (effect c s) := by
  rcases h with rfl | ⟨hs, ha⟩
  · exact settled_initEffect s
  · cases c with
    | nop => simp [Admitted, setsBusy] at ha
    | errClear => simp [Admitted, setsBusy] at ha
    | init => exact settled_initEffect s
    | keyPush b => exact (settled_keyPushEffect hs ha).2
    | ksaStep => exact settled_ksaStepEffect hs ha
    | ksaRun => exact settled_ksaRunEffect hs ha
    | prgaXor m => exact settled_prgaXorEffect hs ha

/-! ### The invariant along every run -/

/-- Under the invariant a busy machine has a command in flight. -/
theorem MachineInv.pending {s : State} (h : MachineInv s) (hb : s.busy = true) :
    ∃ c, s.pend = some c ∧ WellPending c s := by
  obtain ⟨hbp, -, hpend, -⟩ := h
  obtain ⟨c, hc⟩ := Option.isSome_iff_exists.1 (hbp.symm.trans hb)
  exact ⟨c, hc, hpend c hc⟩

theorem MachineInv.settled_complete {s : State} (h : MachineInv s) (hb : s.busy = true) : Settled (complete s) := by
  obtain ⟨c, hc, hw⟩ := h.pending hb
  rw [complete_of_pend hc]
  exact settled_effect hw

theorem machineInv_of_idle {s : State} (hb : s.busy = false) (hp : s.pend = none) (hs : Settled s)
    (he : s.err.toNat ≤ 5) : MachineInv s :=
  ⟨by rw [hb, hp]; rfl, fun _ => hs, by simp [hp], he, by simp [hb]⟩

theorem machineInv_of_pending {s : State} {c : Instr} (hb : s.busy = true) (hp : s.pend = some c)
    (hw : WellPending c s) (he : s.err.toNat ≤ 5) (hl : 1 ≤ s.left) : MachineInv s := by
  refine ⟨by rw [hb, hp]; rfl, by simp [hb], fun d hd => ?_, he, fun _ => hl⟩
  obtain rfl : c = d := Option.some.inj (hp.symm.trans hd)
  exact hw

/-- Every latency is at least one edge (R9). -/
theorem one_le_latency (c : Instr) (r : BitVec 9) : 1 ≤ latency c r := by
  cases c with
  | nop => exact Nat.le_refl 1
  | errClear => exact Nat.le_refl 1
  | init => exact Config.latInit.pos
  | keyPush b => exact Config.latKeyPush.pos
  | ksaStep => exact Config.latKsaStep.pos
  | ksaRun => exact (Config.latKsaRun r).pos
  | prgaXor m => exact Config.latPrgaXor.pos

/-- An edge with `rst` = 1 starts the invariant from any state (R230). -/
theorem machineInv_resetEdge (s : State) : MachineInv (resetEdge s) :=
  machineInv_of_pending rfl rfl (.inl rfl) (by simp) Config.latResetInit.pos

theorem MachineInv.err_le_of_step {s t : State} (hi : MachineInv s) (h : step s = .next t)
    (hrst : (nextPins s).rst = false) : t.err.toNat ≤ 5 := by
  rcases step_err h hrst with he | ⟨-, -, -, hw⟩
  · obtain ⟨-, -, -, herr, -⟩ := hi
    rwa [he]
  · exact hw.le_five

/-- Every edge keeps the invariant, by the moves of the engine. -/
theorem MachineInv.of_step {s t : State} (hi : MachineInv s) (h : step s = .next t) : MachineInv t := by
  rcases step_cases h with ⟨-, rfl⟩ | ⟨hrst, -⟩
  · exact machineInv_resetEdge _
  · have he := hi.err_le_of_step h hrst
    obtain ⟨v, e, x, hm, rfl⟩ := step_move h hrst
    have ⟨hbp, hset, _⟩ := hi
    cases hm with
    | stays hb =>
      have hp : s.pend = none := by simpa [hb] using hbp
      exact machineInv_of_idle hb hp (hset hb) he
    | @accepts c _ _ _ _ hc hr =>
      obtain ⟨hb, ha⟩ := (rejectionOf_eq_none_iff _ s hc).1 hr
      exact machineInv_of_pending rfl rfl (.inr ⟨hset hb, ha⟩) he (one_le_latency c s.r)
    | waits hb hl =>
      obtain ⟨c, hc, hw⟩ := hi.pending hb
      exact machineInv_of_pending hb hc hw he (by simp [afterEdge]; omega)
    | completes hb hl => exact machineInv_of_idle rfl rfl (hi.settled_complete hb) he

/-- Settles O40. -/
theorem everyEdgeKeepsTheInvariant : Obligations.EveryEdgeKeepsTheInvariant :=
  fun _ _ hi h => hi.of_step h

/-- Settles O39: the reset state is settled and nothing is in flight. -/
theorem resetMeetsTheInvariant : Obligations.ResetMeetsTheInvariant :=
  fun _ => machineInv_of_idle rfl rfl (settled_initEffect State.reset) (by simp [State.reset])

/-- What every edge keeps, a run keeps. -/
theorem runEdges_induction {P : State → Prop} (hstep : ∀ s t, P s → step s = .next t → P t) {n : Nat} {s t : State}
    (hs : P s) (h : runEdges n s = .next t) : P t := by
  induction n generalizing s with
  | zero =>
    cases h
    exact hs
  | succ n ih =>
    obtain ⟨u, hu⟩ := step_answers s
    exact ih (hstep s u hs hu) ((runEdges_succ hu n).symm.trans h)

/-- Settles O41: the invariant holds after a reset edge and along every run from there. -/
theorem idleStatesAreSettled : Obligations.IdleStatesAreSettled := by
  intro s t n h hb
  have hi : MachineInv t := runEdges_induction (fun _ _ => MachineInv.of_step) (machineInv_resetEdge s) h
  obtain ⟨-, hset, -⟩ := hi
  obtain ⟨hperm, hklen, hf⟩ := hset hb
  refine ⟨fun v => hperm.existsUnique v, hklen, fun hp => ?_, fun hp => (phaseFacts_ksa hp).1 hf,
    fun hp => (phaseFacts_keyed hp).1 hf⟩
  obtain ⟨hr, hi, hj, hks, hdout, hcount, hsbox⟩ := (phaseFacts_ready hp).1 hf
  exact ⟨hr, hi, hj, hks, hdout, hcount, fun k => by rw [hsbox, entry_identityTable]⟩

/-- Only INIT takes a settled machine out of KEYED (R29). -/
theorem WellPending.init_of_leaves_keyed {c : Instr} {s : State} (h : WellPending c s) (hk : s.phase = .keyed)
    (hne : (effect c s).phase ≠ .keyed) : c = .init := by
  rcases h with rfl | ⟨-, -, hphase, -⟩
  · rfl
  · cases c with
    | init => rfl
    | nop => exact absurd hk hne
    | errClear => exact absurd hk hne
    | prgaXor m => exact absurd hk hne
    | keyPush b => simp [hk, phaseOk] at hphase
    | ksaStep => simp [hk, phaseOk] at hphase
    | ksaRun => simp [hk, phaseOk] at hphase

/-- Settles O44: PHASE changes at a completion alone, and of the commands admitted in KEYED only INIT changes it. -/
theorem onlyInitOrResetLeavesKeyed : Obligations.OnlyInitOrResetLeavesKeyed := by
  intro s t hi h hk hne
  rcases step_cases h with ⟨hrst, -⟩ | ⟨hrst, -⟩
  · exact .inl hrst
  · obtain ⟨v, e, x, hm, rfl⟩ := step_move h hrst
    cases hm with
    | stays => exact absurd hk hne
    | accepts => exact absurd hk hne
    | waits => exact absurd hk hne
    | completes hb hl =>
      obtain ⟨c, hc, hw⟩ := hi.pending hb
      rw [complete_of_pend hc] at hne ⊢
      obtain rfl := hw.init_of_leaves_keyed hk hne
      exact .inr ⟨hb, hc, rfl, rfl⟩

/-! ### Key bytes that no command reads -/

/-- The state with another key buffer. -/
def withKey (K : Table) (s : State) : State := { s with key := K }

/-- The two tables agree at the indices below `n`. -/
def AgreeBelow (n : BitVec 9) (K L : Table) : Prop := ∀ k : Byte, k.toNat < n.toNat → entry K k = entry L k

theorem sameButUnusedKey_withKey {s : State} {K : Table} (h : AgreeBelow s.klen s.key K) :
    SameButUnusedKey s (withKey K s) := ⟨rfl, h⟩

theorem SameButUnusedKey.exists_withKey {s t : State} (h : SameButUnusedKey s t) :
    ∃ K, t = withKey K s ∧ AgreeBelow s.klen s.key K := ⟨t.key, h.1.symm, h.2⟩

theorem submit_withKey (c : Instr) (s : State) (K : Table) : submit c (withKey K s) = withKey K (submit c s) := by
  have hr : rejectionOf c (withKey K s) = rejectionOf c s := rfl
  simp only [submit, hr]
  cases rejectionOf c s <;> rfl

theorem exec_withKey {c : Instr} {s t : State} (K : Table) (h : exec c s = .next t) :
    exec c (withKey K s) = .next (withKey K t) := by
  cases c <;> cases h
  case nop => rfl
  case errClear => rfl
  all_goals exact congrArg Host.Outcome.next (submit_withKey _ s K)

theorem cmdWrite_withKey {w : Word} {s t : State} (K : Table) (h : cmdWrite w s = .next t) :
    cmdWrite w (withKey K s) = .next (withKey K t) := by
  unfold cmdWrite at h ⊢
  cases hd : decode w with
  | error x =>
    simp only [hd] at h ⊢
    cases h
    rfl
  | ok c =>
    simp only [hd] at h ⊢
    exact exec_withKey K h

theorem portRead_withKey (free : Word) (s : State) (a : WordAddr) (K : Table) :
    portRead free (withKey K s) a = portRead free s a := by
  unfold portRead
  cases regAt a with
  | none => rfl
  | some reg => cases reg <;> rfl

/-- No access reads or writes K (R23). -/
theorem hostAccess_withKey {p : Pins} {free : Word} {s t : State} (K : Table) (h : hostAccess p free s = .next t) :
    hostAccess p free (withKey K s) = .next (withKey K t) := by
  unfold hostAccess at h ⊢
  cases hreq : p.req with
  | false =>
    simp only [hreq] at h ⊢
    cases h
    rfl
  | true =>
    cases hwe : p.we with
    | false =>
      simp only [hreq, hwe, portRead_withKey] at h ⊢
      cases h
      rfl
    | true =>
      simp only [hreq, hwe, portWrite] at h ⊢
      split at h
      · exact cmdWrite_withKey K h
      · cases h
        rfl

/-- A round reads K at an index below KLEN only (R69, R130). -/
theorem ksaRound_withKey {s : State} {K : Table} (hk : 1 ≤ s.klen.toNat) (h : AgreeBelow s.klen s.key K) :
    ksaRound (withKey K s) = withKey K (ksaRound s) := by
  have hj : ksaNextJ (withKey K s) = ksaNextJ s := by
    have := h _ (keyIndex_toNat (roundIndex s.r) hk).2
    simp only [ksaNextJ, this, withKey]
  have hr : (withKey K s).r = s.r := rfl
  rcases ksaRound_cases s with ⟨h1, h2⟩ | ⟨h1, h2⟩ <;>
    rcases ksaRound_cases (withKey K s) with ⟨h3, h4⟩ | ⟨h3, h4⟩
  · rw [h2, h4, hj]; rfl
  · exact absurd h3 h1
  · exact absurd h1 h3
  · rw [h2, h4, hj]; rfl

theorem ksaRounds_withKey (n : Nat) {s : State} {K : Table} (hk : 1 ≤ s.klen.toNat) (h : AgreeBelow s.klen s.key K) :
    ksaRounds n (withKey K s) = withKey K (ksaRounds n s) := by
  induction n generalizing s with
  | zero => rfl
  | succ n ih =>
    rw [ksaRounds, ksaRounds, ksaRound_withKey hk h]
    exact ih (by rwa [ksaRound_klen]) (by rwa [ksaRound_klen, ksaRound_key])

theorem ksaStepEffect_withKey {s : State} {K : Table} (hk : 1 ≤ s.klen.toNat) (h : AgreeBelow s.klen s.key K) :
    ksaStepEffect (withKey K s) = withKey K (ksaStepEffect s) := by
  have hr : (withKey K (ksaRound s)).r = (ksaRound s).r := rfl
  simp only [ksaStepEffect, ksaRound_withKey hk h, hr]
  split <;> rfl

/-- KEY_PUSH makes the byte at index KLEN the same in both buffers, whatever was there. -/
theorem agreeBelow_push {n : BitVec 9} {K L : Table} (b : Byte) (hn : n.toNat < 256) (h : AgreeBelow n K L) :
    AgreeBelow (n + 1) (setEntry K (pushIndex n) b) (setEntry L (pushIndex n) b) := by
  intro k hk
  rw [toNat_add_one (by omega)] at hk
  rw [entry_setEntry, entry_setEntry]
  split
  · rfl
  · rename_i hne
    have : k.toNat ≠ n.toNat := fun e => hne (BitVec.eq_of_toNat_eq (e.trans (pushIndex_toNat hn).symm))
    exact h k (by omega)

/-- Effects do not show the key bytes at index ≥ KLEN, and leave the two buffers in agreement below the new KLEN. -/
theorem effect_withKey {c : Instr} {s : State} {K : Table} (hw : WellPending c s) (h : AgreeBelow s.klen s.key K) :
    ∃ L, effect c (withKey K s) = withKey L (effect c s) ∧ AgreeBelow (effect c s).klen (effect c s).key L := by
  rcases hw with rfl | ⟨hs, ha⟩
  · exact ⟨K, rfl, fun k hk => absurd hk (by simp)⟩
  · cases c with
    | nop => exact ⟨K, rfl, h⟩
    | errClear => exact ⟨K, rfl, h⟩
    | init => exact ⟨K, rfl, fun k hk => absurd hk (by simp)⟩
    | prgaXor m => exact ⟨K, rfl, h⟩
    | keyPush b => exact ⟨_, rfl, agreeBelow_push b (settled_keyPushEffect hs ha).1 h⟩
    | ksaStep =>
      obtain ⟨-, -, hk⟩ := hs.round_of_needsKey rfl ha
      exact ⟨K, ksaStepEffect_withKey hk h, by simpa using h⟩
    | ksaRun =>
      obtain ⟨-, -, hk⟩ := hs.round_of_needsKey rfl ha
      exact ⟨K, ksaRounds_withKey _ hk h, by simpa using h⟩

/-- An engine that acts on two states that differ in unused key bytes leaves two such states. -/
theorem engineTick_withKey {c : Instr} {s : State} {K : Table} (hp : s.pend = some c) (hw : WellPending c s)
    (h : AgreeBelow s.klen s.key K) :
    ∃ L, engineTick (withKey K s) = withKey L (engineTick s) ∧
      AgreeBelow (engineTick s).klen (engineTick s).key L := by
  rcases engineTick_cases s with ⟨hl, ht⟩ | ⟨hl, ht⟩ <;>
    rcases engineTick_cases (withKey K s) with ⟨hl', ht'⟩ | ⟨hl', ht'⟩
  · obtain ⟨L, he, hL⟩ := effect_withKey hw h
    refine ⟨L, ?_, ?_⟩
    · rw [ht, ht', complete_of_pend hp, complete_of_pend (s := withKey K s) hp, he]
      rfl
    · rwa [ht, complete_of_pend hp]
  · exact absurd hl (Nat.not_le.2 hl')
  · exact absurd hl' (Nat.not_le.2 hl)
  · exact ⟨K, by rw [ht, ht']; rfl, by rwa [ht]⟩

/-- One edge from two states that differ in unused key bytes leaves two such states (R23, U6). -/
theorem step_withKey {s t t' : State} {K : Table} (hi : MachineInv s) (hK : AgreeBelow s.klen s.key K)
    (h : step s = .next t) (h' : step (withKey K s) = .next t') :
    ∃ L, t' = withKey L t ∧ AgreeBelow t.klen t.key L := by
  rcases step_cases h with ⟨hrst, rfl⟩ | ⟨hrst, u, hu, rfl⟩ <;>
    rcases step_cases h' with ⟨hrst', rfl⟩ | ⟨hrst', u', hu', rfl⟩
  · exact ⟨_, rfl, fun _ _ => rfl⟩
  · exact absurd (hrst.symm.trans hrst') (by decide)
  · exact absurd (hrst'.symm.trans hrst) (by decide)
  · obtain rfl : withKey K u = u' := by
      injection (hostAccess_withKey K hu).symm.trans hu'
    have hb' : (withKey K s).busy = s.busy := rfl
    rw [hb']
    cases hb : s.busy with
    | false =>
      refine ⟨K, rfl, ?_⟩
      rcases hostAccess_changes hu with ⟨e, x, rfl⟩ | ⟨-, -, -, c, -, -, -, rfl⟩ <;> exact hK
    | true =>
      obtain ⟨c, hc, hw⟩ := hi.pending hb
      obtain ⟨e, x, rfl⟩ := hostAccess_busy (s := nextCycle (dropPins s)) hb hu
      exact engineTick_withKey hc hw hK

/-- Settles O46: the two states differ by the key buffer alone, and `step_withKey` keeps that. -/
theorem unusedKeyBytesAreNeverObservable : Obligations.UnusedKeyBytesAreNeverObservable := by
  intro s s' t t' hi hs h h'
  obtain ⟨K, rfl, hK⟩ := hs.exists_withKey
  obtain ⟨L, rfl, hL⟩ := step_withKey hi hK h h'
  exact ⟨sameButUnusedKey_withKey hL, rfl⟩

/-! ### The reset state as the host reads it -/

/-- The table is at word address 0x100 and above (R52). -/
theorem regAt_eq_sbox {a : WordAddr} {k : Byte} (h : regAt a = some (.sbox k)) : 0x100 ≤ a.toNat := by
  unfold regAt at h
  split at h
  case h_7 =>
    split at h
    · rename_i hn
      exact hn.1
    · cases h
  all_goals cases h

theorem regAt_of_sbox {a : WordAddr} {k : Byte} (h : a.toNat = 0x100 + k.toNat) : regAt a = some (.sbox k) := by
  have hk : k.toNat < 256 := k.isLt
  have ha : a = regAddr (.sbox k) := by
    apply BitVec.eq_of_toNat_eq
    rw [h]
    simp [regAddr]
    omega
  rw [ha, regAt_regAddr]

/-- Every register but the table reads 0 at reset (R37, R53, R54). -/
theorem portRead_reset_low (free : Word) {a : WordAddr} (ha : a.toNat < 0x100) :
    portRead free State.reset a = 0#32 := by
  unfold portRead
  cases hreg : regAt a with
  | none => rfl
  | some reg =>
    cases reg with
    | sbox k => exact absurd (regAt_eq_sbox hreg) (by omega)
    | status =>
      show statusWord 0#4 0#2 false = 0#32
      decide
    | _ => rfl

/-- The table reads as the identity at reset (R37, R55). -/
theorem portRead_reset_sbox (free : Word) {a : WordAddr} {k : Byte} (ha : a.toNat = 0x100 + k.toNat) :
    (portRead free State.reset a).toNat = k.toNat := by
  have hk : k.toNat < 256 := k.isLt
  have hread : portRead free State.reset a = (entry identityTable k).setWidth 32 := by
    rw [portRead, regAt_of_sbox ha]
    rfl
  rw [hread, entry_identityTable, BitVec.toNat_setWidth]
  omega

/-- Settles O38. -/
theorem resetStateIsAsTabled : Obligations.ResetStateIsAsTabled :=
  ⟨⟨entry_identityTable, rfl, rfl, rfl, rfl, rfl, rfl, rfl, rfl, rfl, rfl, rfl⟩,
    fun free _ ha => portRead_reset_low free ha, fun free _ _ ha => portRead_reset_sbox free ha⟩

end Sys2Proof.Machine
end

section
/-! PROOFS. The register window: where the registers are (20_memory.md R52), what each reads (R53 to R55, R58, R59), and the
accesses that exist (R56). -/

namespace Sys2Proof.Machine

/-! ### Which register is at a word address -/

/-- The word addresses between the registers and the table, and above the table, are unmapped (R52). -/
theorem regAt_unmapped {a : WordAddr} (h : (6 ≤ a.toNat ∧ a.toNat < 0x100) ∨ 0x200 ≤ a.toNat) : regAt a = none := by
  unfold regAt
  split
  case h_7 => exact if_neg (by omega)
  all_goals omega

/-- Word addresses 0x100 to 0x1FF are the table's, one for each index (R52). -/
theorem exists_sbox_index {a : WordAddr} (hlo : 0x100 ≤ a.toNat) (hhi : a.toNat < 0x200) :
    ∃ k : Byte, a.toNat = 0x100 + k.toNat :=
  ⟨BitVec.ofNat 8 (a.toNat - 0x100), by rw [BitVec.toNat_ofNat]; omega⟩

/-! ### What the field bits of a register read -/

section FieldBits
variable {w : Nat} (hw : w ≤ 32) (free : Word)
include hw

/-- The bits above a register's fields read 0, busy or not (R58). -/
theorem toNat_fieldOrFree_lt (busy : Bool) (v : BitVec w) : (fieldOrFree free busy v).toNat < 2 ^ w := by
  rw [fieldOrFree, BitVec.toNat_setWidth_of_le hw]
  exact BitVec.isLt _

theorem toNat_fieldOrFree_idle (v : BitVec w) : (fieldOrFree free false v).toNat = v.toNat :=
  BitVec.toNat_setWidth_of_le hw

theorem toNat_fieldOrFree_busy (v : BitVec w) : (fieldOrFree free true v).toNat = free.toNat % 2 ^ w :=
  (BitVec.toNat_setWidth_of_le hw).trans (BitVec.toNat_setWidth w free)

end FieldBits

/-- INDEX as a number (R54). -/
theorem toNat_indexBits (s : State) : (indexBits s).toNat = s.r.toNat * 65536 + s.j.toNat * 256 + s.i.toNat := by
  rw [indexBits, toNat_append_add, toNat_append_add]
  omega

/-- OUT as a number (R54). -/
theorem toNat_outBits (s : State) : (outBits s).toNat = s.ks.toNat * 256 + s.dout.toNat :=
  toNat_append_add s.ks s.dout

/-- STATUS as a number: BUSY, no bit 1, the phase bits, ERR (R53). -/
theorem toNat_statusWord (e : BitVec 4) (p : BitVec 2) (b : Bool) :
    (statusWord e p b).toNat = e.toNat * 16 + p.toNat * 4 + b.toNat := by
  rw [statusWord, BitVec.toNat_setWidth_of_le (by decide), toNat_append_add, toNat_append_add, toNat_append_add,
    BitVec.toNat_ofBool, show (0#1).toNat = 0 from rfl]
  omega

theorem toNat_statusWord_lt (e : BitVec 4) (p : BitVec 2) (b : Bool) : (statusWord e p b).toNat < 2 ^ 8 := by
  have := e.isLt
  have := p.isLt
  have := b.toNat_lt
  rw [toNat_statusWord]
  omega

/-- Each field of STATUS at its place (R53). -/
theorem statusWord_fields (e : BitVec 4) (p : BitVec 2) (b : Bool) :
    (statusWord e p b).getLsbD 0 = b ∧ (statusWord e p b).getLsbD 1 = false ∧
      (statusWord e p b).extractLsb' 2 2 = p ∧ (statusWord e p b).extractLsb' 4 4 = e := by
  have he := e.isLt
  have hp := p.isLt
  have hb := b.toNat_lt
  refine ⟨?_, ?_, BitVec.eq_of_toNat_eq ?_, BitVec.eq_of_toNat_eq ?_⟩
  · rw [BitVec.getLsbD, toNat_statusWord, Nat.testBit_zero]
    cases b with
    | false => simp; omega
    | true => simp; omega
  · rw [BitVec.getLsbD, toNat_statusWord, Nat.testBit_succ, Nat.testBit_zero]
    simp
    omega
  · rw [BitVec.extractLsb'_toNat, toNat_statusWord, Nat.shiftRight_eq_div_pow]
    omega
  · rw [BitVec.extractLsb'_toNat, toNat_statusWord, Nat.shiftRight_eq_div_pow]
    omega

/-! ### What the port reads at each word address -/

theorem portRead_status (free : Word) (s : State) :
    portRead free s 0x001#10 = statusWord s.err (if s.busy then free.setWidth 2 else phaseCode s.phase) s.busy := rfl

theorem portRead_keylen (free : Word) (s : State) : portRead free s 0x002#10 = fieldOrFree free s.busy s.klen := rfl

theorem portRead_index (free : Word) (s : State) :
    portRead free s 0x003#10 = fieldOrFree free s.busy (indexBits s) := rfl

theorem portRead_out (free : Word) (s : State) : portRead free s 0x004#10 = fieldOrFree free s.busy (outBits s) := rfl

theorem portRead_kscount (free : Word) (s : State) :
    portRead free s 0x005#10 = fieldOrFree free s.busy s.kscount := rfl

theorem portRead_sbox (free : Word) (s : State) {a : WordAddr} {k : Byte} (ha : a.toNat = 0x100 + k.toNat) :
    portRead free s a = fieldOrFree free s.busy (entry s.sbox k) := by
  rw [portRead, regAt_of_sbox ha]
  rfl

theorem portRead_unmapped (free : Word) (s : State) {a : WordAddr}
    (ha : (6 ≤ a.toNat ∧ a.toNat < 0x100) ∨ 0x200 ≤ a.toNat) : portRead free s a = 0#32 := by
  rw [portRead, regAt_unmapped ha]

/-- With BUSY = 0 no bit of a read is free (R59). -/
theorem portRead_idle_eq (x y : Word) {s : State} (hb : s.busy = false) (a : WordAddr) :
    portRead x s a = portRead y s a := by
  unfold portRead
  cases regAt a with
  | none => rfl
  | some reg => cases reg <;> simp only [readReg, fieldOrFree, hb] <;> rfl

/-- Settles O14: with BUSY = 0 the field bits are the registers'. -/
theorem registerReadsWhenIdle : Obligations.RegisterReadsWhenIdle := by
  intro s free hb
  rw [portRead_keylen, portRead_index, portRead_out, portRead_kscount, hb]
  refine ⟨toNat_fieldOrFree_idle (by decide) free _, ?_, ?_, ?_, fun a k ha => ?_⟩
  · rw [toNat_fieldOrFree_idle (by decide), toNat_indexBits]
  · rw [toNat_fieldOrFree_idle (by decide), toNat_outBits]
  · exact BitVec.eq_of_toNat_eq (toNat_fieldOrFree_idle (by decide) free _)
  · rw [portRead_sbox free s ha, hb, toNat_fieldOrFree_idle (by decide)]

/-- Settles O15, field by field of the STATUS word. -/
theorem statusReadsItsFields : Obligations.StatusReadsItsFields := by
  intro s free
  obtain ⟨hbusy, hzero, hphase, herr⟩ :=
    statusWord_fields s.err (if s.busy then free.setWidth 2 else phaseCode s.phase) s.busy
  rw [portRead_status]
  refine ⟨hbusy, hzero, herr, toNat_statusWord_lt _ _ _, fun hb => ?_, fun hb x => ⟨x.setWidth 32, ?_⟩⟩
  · rw [hphase, hb]
    cases s.phase <;> rfl
  · obtain ⟨-, -, hphase', -⟩ := statusWord_fields s.err ((x.setWidth 32).setWidth 2) s.busy
    rw [portRead_status, if_pos hb, hphase']
    exact (BitVec.setWidth_setWidth_of_le x (by decide)).trans (BitVec.setWidth_eq x)

/-- Settles O17: no register at an unmapped address, and no bit beyond a register's fields. -/
theorem unassignedBitsReadZero : Obligations.UnassignedBitsReadZero := by
  intro s free
  obtain ⟨-, hzero, -⟩ := statusWord_fields s.err (if s.busy then free.setWidth 2 else phaseCode s.phase) s.busy
  refine ⟨?_, ⟨toNat_statusWord_lt _ _ _, hzero⟩, toNat_fieldOrFree_lt (by decide) free _ _,
    toNat_fieldOrFree_lt (by decide) free _ _, toNat_fieldOrFree_lt (by decide) free _ _, fun a hlo hhi => ?_⟩
  · rintro a (rfl | ha)
    · rfl
    · exact portRead_unmapped free s ha
  · obtain ⟨k, hk⟩ := exists_sbox_index hlo hhi
    rw [portRead_sbox free s hk]
    exact toNat_fieldOrFree_lt (by decide) free _ _

/-! ### The accesses that exist -/

theorem accessExists_iff (addr size : Nat) :
    accessExists addr size = true ↔ size = 4 ∧ addr % 4 = 0 ∧ addr < 0x1000 := by
  simp [accessExists, and_assoc]

/-- Settles O48, by whether the access exists. -/
theorem onlyAlignedWordAccessesExist : Obligations.OnlyAlignedWordAccessesExist := by
  intro addr size v
  refine ⟨fun hs hm hlt => ?_, fun h => ?_⟩
  · have hex := (accessExists_iff addr size).2 ⟨hs, hm, hlt⟩
    refine ⟨BitVec.ofNat 10 (addr / 4), ?_, if_pos hex, if_pos hex⟩
    rw [BitVec.toNat_ofNat]
    omega
  · have hex : ¬ accessExists addr size = true := by
      rw [accessExists_iff]
      omega
    exact ⟨if_neg hex, if_neg hex⟩

end Sys2Proof.Machine
end

section
/-! PROOFS. One edge by the access the host makes at it: what `rdata` then carries, and what a read, an ignored write and a
command word leave to the engine (20_memory.md R51, R57, R59, R60, 60_exceptions.md R204). -/

namespace Sys2Proof.Machine

/-! ### The handling of a command word -/

/-- A command's word decodes to it (R81, R84). -/
theorem decode_encode (c : Instr) : decode (encode c) = .ok c :=
  decode_of_fields _ c (fieldsOf_wordOf c.fields)

theorem cmdWrite_of_decode_ok {w : Word} {c : Instr} (h : decode w = .ok c) (s : State) : cmdWrite w s = exec c s := by
  rw [cmdWrite, h]

theorem cmdWrite_of_illegal {w : Word} {x : Illegal} (h : decode w = .error x) (s : State) :
    cmdWrite w s = .next (reject .illegal s) := by
  rw [cmdWrite, h]

/-- While a command is in flight, a command that sets BUSY is rejected with BUSY (R200, R234). -/
theorem exec_busy {c : Instr} {s t : State} (hc : setsBusy c = true) (hb : s.busy = true) (h : exec c s = .next t) :
    t = reject .busy s := by
  have hr := rejectionOf_busy c hb
  rcases exec_cases h with ⟨rfl, -⟩ | ⟨rfl, -⟩ | ⟨-, code, hcode, ht⟩ | ⟨-, hnone, -⟩
  · cases hc
  · cases hc
  · obtain rfl : code = .busy := Option.some.inj (hcode.symm.trans hr)
    exact ht
  · rw [hr] at hnone
    cases hnone

/-- A write outside CMD has no effect (R57). -/
theorem portWrite_outside_cmd {a : WordAddr} (ha : a ≠ 0#10) (v : Word) (s : State) : portWrite a v s = .next s := by
  unfold portWrite
  split
  · rename_i hcmd
    exact absurd (regAt_eq_cmd hcmd) ha
  · rfl

/-! ### What an edge does to the read data -/

/-- An access that is no read leaves `rdata` as the cycle began (R51). -/
theorem hostAccess_rdata {p : Pins} {free : Word} {s t : State} (h : hostAccess p free s = .next t) :
    t.rdata = if p.req = true ∧ p.we = false then portRead free s p.waddr else s.rdata := by
  unfold hostAccess at h
  split at h
  · rename_i hreq
    cases h
    rw [if_neg (by simp [hreq])]
  · rename_i hreq hwe
    rw [if_neg (by simp [hwe])]
    unfold portWrite at h
    split at h
    · rcases cmdWrite_cases h with rfl | rfl | ⟨code, rfl⟩ | ⟨c, -, -, rfl⟩ <;> rfl
    · cases h
      rfl
  · rename_i hreq hwe
    cases h
    rw [if_pos ⟨hreq, hwe⟩]

/-- The engine does not use what `rdata` carries, and keeps it. -/
theorem engineTick_withRdata (s : State) (x : Word) :
    engineTick { s with rdata := x } = { engineTick s with rdata := x } := by
  have hc : complete { s with rdata := x } = { complete s with rdata := x } := by
    have h := complete_port s x s.draws s.inputs s.left
    rw [h]
    simp
  unfold engineTick
  rw [hc]
  split <;> rfl

/-- The same of the engine's turn at an edge, which it has if a command was in flight. -/
theorem engineTurn_withRdata (busy : Bool) (s : State) (x : Word) :
    (if busy then engineTick { s with rdata := x } else { s with rdata := x }) =
      { (if busy then engineTick s else s) with rdata := x } := by
  cases busy with
  | false => rfl
  | true => exact engineTick_withRdata s x

theorem engineTick_rdata (s : State) : (engineTick s).rdata = s.rdata := by
  rcases engineTick_cases s with ⟨-, h⟩ | ⟨-, h⟩ <;> rw [h]
  simp

/-- A read does not depend on the port's side of the state: `rdata`, the coming pins and the draws (R52 to R55). -/
theorem portRead_nextCycle (free : Word) (s : State) (a : WordAddr) :
    portRead free (nextCycle (dropPins s)) a = portRead free s a :=
  portRead_congr rfl free a

/-- After an edge `rdata` is the register read as it was before the edge, or a free value (R51, R230). -/
theorem step_rdata {s t : State} (h : step s = .next t) :
    t.rdata = if (nextPins s).rst = false ∧ (nextPins s).req = true ∧ (nextPins s).we = false then
      portRead (Config.freeWord s.draws) s (nextPins s).waddr else Config.freeWord s.draws := by
  rcases step_cases h with ⟨hrst, rfl⟩ | ⟨hrst, u, hu, rfl⟩
  · simp [hrst]
  · have he : (if s.busy then engineTick u else u).rdata = u.rdata := by
      split
      · exact engineTick_rdata u
      · rfl
    rw [he, hostAccess_rdata hu, portRead_nextCycle]
    simp [hrst]

theorem nextPins_cons {s : State} {p : Pins} {rest : List Pins} (h : s.inputs = p :: rest) : nextPins s = p := by
  simp [nextPins, h]

theorem step_read_rdata {s t : State} {a : WordAddr} {rest : List Pins} (h : step s = .next t)
    (hp : s.inputs = Pins.read a :: rest) : t.rdata = portRead (Config.freeWord s.draws) s a := by
  rw [step_rdata h, nextPins_cons hp]
  rfl

/-- Settles O51. -/
theorem everyEdgeDrivesRdata : Obligations.EveryEdgeDrivesRdata := by
  refine ⟨fun s => ?_, fun s a rest hp => ?_⟩ <;> obtain ⟨t, ht⟩ := step_answers s
  · exact ⟨t, ht, step_rdata ht⟩
  · exact ⟨t, ht, step_read_rdata ht hp⟩

/-- An edge with `rst` = 0 draws one free value. -/
theorem step_draws {s t : State} (h : step s = .next t) (hrst : (nextPins s).rst = false) : t.draws = s.draws + 1 := by
  obtain ⟨v, e, x, hm, rfl⟩ := step_move h hrst
  have hv : v.draws = s.draws := by cases hm <;> simp
  exact congrArg (· + 1) hv

/-- Settles O16: with BUSY = 1 the field bits are the low bits of the edge's free value. -/
theorem readsWhileBusyAreFree : Obligations.ReadsWhileBusyAreFree := by
  intro s hb
  refine ⟨fun free => ?_, fun a rest hp => ?_⟩
  · rw [portRead_keylen, portRead_index, portRead_out, portRead_kscount, hb]
    refine ⟨toNat_fieldOrFree_busy (by decide) free _, toNat_fieldOrFree_busy (by decide) free _,
      toNat_fieldOrFree_busy (by decide) free _, ?_, fun a hlo hhi => ?_⟩
    · exact BitVec.eq_of_toNat_eq ((toNat_fieldOrFree_busy (by decide) free _).trans (Nat.mod_eq_of_lt free.isLt))
    · obtain ⟨k, hk⟩ := exists_sbox_index hlo hhi
      rw [portRead_sbox free s hk, hb]
      exact toNat_fieldOrFree_busy (by decide) free _
  · obtain ⟨t, ht⟩ := step_answers s
    exact ⟨t, ht, step_read_rdata ht hp, step_draws ht (by rw [nextPins_cons hp]; rfl)⟩

/-! ### An edge by its access -/

theorem step_of_access {s u : State} {p : Pins} {rest : List Pins} (hp : s.inputs = p :: rest) (hrst : p.rst = false)
    (h : hostAccess p (Config.freeWord s.draws) (nextCycle (dropPins s)) = .next u) :
    step s = .next (if s.busy then engineTick u else u) := by
  obtain ⟨t, ht⟩ := step_answers s
  obtain ⟨v, hv, rfl⟩ := step_access ht (by rw [nextPins_cons hp, hrst])
  rw [nextPins_cons hp, h] at hv
  cases hv
  exact ht

/-- Settles O13: at an edge with a write outside CMD the access answers what no access answers. -/
theorem writesOutsideCmdAreIgnored : Obligations.WritesOutsideCmdAreIgnored := by
  refine ⟨fun s v free => rfl, fun s a v rest ha => ?_⟩
  have hwrite := step_of_access (s := { s with inputs := Pins.write a v :: rest }) rfl rfl
    (portWrite_outside_cmd ha v _)
  have hidle := step_of_access (s := { s with inputs := Pins.idle :: rest }) rfl rfl rfl
  exact hwrite.trans hidle.symm

/-- An edge with a read is an idle edge but for `rdata`. -/
theorem step_read_idle (s : State) (a : WordAddr) (rest : List Pins) :
    ∃ u x, step { s with inputs := Pins.read a :: rest } = .next { u with rdata := x } ∧
      step { s with inputs := Pins.idle :: rest } = .next u := by
  have hread := step_of_access (s := { s with inputs := Pins.read a :: rest }) rfl rfl rfl
  have hidle := step_of_access (s := { s with inputs := Pins.idle :: rest }) rfl rfl rfl
  exact ⟨_, _, hread.trans (congrArg _ (engineTurn_withRdata _ _ _)), hidle⟩

/-- With BUSY = 0 an edge with a read changes nothing that a read shows (R60). -/
theorem archState_step_read {s t : State} {a : WordAddr} {rest : List Pins} (h : step s = .next t)
    (hb : s.busy = false) (hp : s.inputs = Pins.read a :: rest) : archState t = archState s ∧ t.inputs = rest := by
  rw [step_of_access hp rfl rfl, hb] at h
  cases h
  exact ⟨rfl, by simp [hp]⟩

/-- Settles O18. -/
theorem readsHaveNoSideEffect : Obligations.ReadsHaveNoSideEffect := by
  intro s a rest
  refine ⟨?_, fun hb => ?_⟩
  · obtain ⟨u, x, hread, hidle⟩ := step_read_idle s a rest
    exact ⟨_, u, hread, hidle, rfl⟩
  · obtain ⟨t, ht⟩ := step_answers { s with inputs := Pins.read a :: Pins.read a :: rest }
    obtain ⟨u, hu⟩ := step_answers t
    obtain ⟨harch, hp⟩ := archState_step_read ht hb rfl
    refine ⟨t, u, ht, hu, ?_⟩
    rw [step_read_rdata hu hp, step_read_rdata ht rfl, portRead_congr harch]
    exact portRead_idle_eq _ _ hb a

/-- Settles O7: a word that decodes is handled by its command, any other is rejected as illegal. -/
theorem stepRunsTheCommandWritten : Obligations.StepRunsTheCommandWritten := by
  intro s w rest hp
  obtain ⟨t, ht⟩ := hostAccess_answers (Pins.write 0#10 w) (Config.freeWord s.draws) (nextCycle (dropPins s))
  have hw : cmdWrite w (nextCycle (dropPins s)) = .next t := ht
  refine ⟨nextCycle (dropPins s), t, by simp [nextCycle, dropPins, hp], hw, fun c hc => ?_, ?_,
    step_of_access hp rfl ht⟩
  · rwa [cmdWrite_of_decode_ok hc] at hw
  · rintro ⟨x, hx⟩
    rw [cmdWrite_of_illegal hx] at hw
    cases hw
    rfl

/-! ### The edge of a completion -/

/-- The edge of a completion leaves the completion's state but for ERR, whatever the access (R204). -/
theorem step_last_edge {s t : State} (h : step s = .next t) (hb : s.busy = true) (hl : s.left ≤ 1)
    (hrst : (nextPins s).rst = false) : engineRegs t = engineRegs (complete s) ∧ t.busy = false ∧ t.pend = none := by
  obtain ⟨e, x, hs⟩ := step_completes hb hl hrst
  rw [hs] at h
  cases h
  exact ⟨rfl, rfl, rfl⟩

theorem step_read_err {s t : State} {a : WordAddr} {rest : List Pins} (h : step s = .next t)
    (hp : s.inputs = Pins.read a :: rest) : t.err = s.err := by
  have hpins := nextPins_cons hp
  rcases step_err h (by rw [hpins]; rfl) with he | ⟨-, hwe, -⟩
  · exact he
  · rw [hpins] at hwe
    cases hwe

/-- A command that sets BUSY, written while one is in flight, leaves ERR = BUSY (R200, R201). -/
theorem step_write_busy_err {s t : State} {c : Instr} {rest : List Pins} (h : step s = .next t)
    (hc : setsBusy c = true) (hb : s.busy = true) (hp : s.inputs = Pins.write 0#10 (encode c) :: rest) : t.err = 2 := by
  obtain ⟨u, v, hu, -, hexec, -, hstep⟩ := stepRunsTheCommandWritten s (encode c) rest hp
  have hv := exec_busy hc (by rw [hu]; exact hb) (hexec c (decode_encode c))
  rw [hstep, if_pos hb] at h
  cases h
  rw [engineTick_err, hv]
  rfl

/-- Settles O19: the access at the last edge acts on the state before it, and the completion comes all the same. -/
theorem accessPrecedesCompletionAtOneEdge : Obligations.AccessPrecedesCompletionAtOneEdge := by
  intro s rest hb hl
  have hregs (p : Pins) : engineRegs (complete { s with inputs := p :: rest }) = engineRegs (complete s) :=
    (congrArg engineRegs (complete_port s s.rdata s.draws (p :: rest) s.left)).trans rfl
  refine ⟨fun a => ?_, fun c hc => ?_⟩
  · obtain ⟨t, ht⟩ := step_answers { s with inputs := Pins.read a :: rest }
    obtain ⟨hr, hbusy, hpend⟩ := step_last_edge ht hb hl rfl
    refine ⟨t, ht, (step_read_rdata ht rfl).trans (portRead_congr rfl _ a), ?_⟩
    simp [archState, hr.trans (hregs _), hbusy, hpend, step_read_err ht rfl]
  · obtain ⟨t, ht⟩ := step_answers { s with inputs := Pins.write 0#10 (encode c) :: rest }
    obtain ⟨hr, hbusy, hpend⟩ := step_last_edge ht hb hl rfl
    exact ⟨t, ht, step_write_busy_err ht hc hb rfl, hbusy, hpend, hr.trans (hregs _)⟩

end Sys2Proof.Machine
end

section
/-! PROOFS. The encoding (30_encoding.md): decode and encode are inverse to each other (R81, R83, R84), which words are legal
(R85), the opcode rows (R83), and the words and accesses of the assembly statements (R87, R89). -/

namespace Sys2Proof.Machine

/-! ### Decode and encode -/

theorem encode_of_decode_ok {w : Word} {i : Instr} (h : decode w = .ok i) : encode i = w := by
  rw [encode, ← decode_ok h, wordOf_fieldsOf]

theorem decode_eq_ok_iff {w : Word} {i : Instr} : decode w = .ok i ↔ encode i = w :=
  ⟨encode_of_decode_ok, fun h => h ▸ decode_encode i⟩

theorem encode_injective : Function.Injective encode := fun i _ h =>
  Except.ok.inj ((decode_encode i).symm.trans (decode_eq_ok_iff.2 h.symm))

/-- The law of R81 and R83's rows, which is stated command by command, for every command. -/
theorem encoding_statement (i : Instr) : Laws.Encoding.Statement i := by
  cases i with
  | nop => exact Laws.Encoding.nop
  | init => exact Laws.Encoding.init
  | keyPush b => exact Laws.Encoding.keyPush b
  | ksaStep => exact Laws.Encoding.ksaStep
  | ksaRun => exact Laws.Encoding.ksaRun
  | prgaXor m => exact Laws.Encoding.prgaXor m
  | errClear => exact Laws.Encoding.errClear

theorem fields_wellFormed (i : Instr) : i.fields.WellFormed := (encoding_statement i).1

/-- Settles O1: the fields of a word and the word of given fields are inverse, and decoding reads the fields. -/
theorem commandsRoundTrip : Obligations.CommandsRoundTrip :=
  ⟨fun i => ⟨fields_wellFormed i, decode_encode i⟩, fun _ _ => encode_of_decode_ok⟩

/-! ### The opcode rows -/

theorem rowOf_accepts_encode (i : Instr) : encode i &&& (rowOf i).mask = (rowOf i).pattern :=
  beq_iff_eq.1 (encoding_statement i).2.2

/-- The mask of a row with no operand selects every bit. -/
theorem decode_of_and_fullMask {w : Word} {c : Instr} (h : w &&& 0xFFFFFFFF#32 = encode c) : decode w = .ok c := by
  rw [show (0xFFFFFFFF#32 : Word) = BitVec.allOnes 32 from rfl, BitVec.and_allOnes] at h
  exact decode_eq_ok_iff.2 h.symm

theorem fieldsOf_and (v w : Word) : fieldsOf (v &&& w) =
    ⟨(fieldsOf v).opc &&& (fieldsOf w).opc, (fieldsOf v).rsv0 &&& (fieldsOf w).rsv0,
      (fieldsOf v).arg &&& (fieldsOf w).arg, (fieldsOf v).rsv1 &&& (fieldsOf w).rsv1⟩ := by
  simp only [fieldsOf, BitVec.extractLsb'_and]

/-- The mask of a row with an operand clears ARG and keeps the other fields (R83). -/
theorem fieldsOf_and_operandMask (w : Word) : fieldsOf (w &&& 0xFFFF00FF#32) = { fieldsOf w with arg := 0#8 } := by
  have hmask : fieldsOf 0xFFFF00FF#32 = ⟨BitVec.allOnes 4, BitVec.allOnes 4, 0#8, BitVec.allOnes 16⟩ := rfl
  rw [fieldsOf_and, hmask]
  simp only [BitVec.and_allOnes, BitVec.and_zero]

/-- A word that agrees with a command's word outside ARG has that command's other fields. -/
theorem fieldsOf_of_and_operandMask {w : Word} (c : Instr) (h : w &&& 0xFFFF00FF#32 = encode c) :
    fieldsOf w = { c.fields with arg := (fieldsOf w).arg } := by
  rw [← fieldsOf_wordOf c.fields, ← encode, ← h, fieldsOf_and_operandMask]

/-- A word that a row accepts decodes to a command of that row (R83). -/
theorem decode_of_row_accepts {w : Word} {c : Instr} (h : w &&& (rowOf c).mask = (rowOf c).pattern) :
    ∃ i, decode w = .ok i ∧ rowOf i = rowOf c := by
  cases c with
  | keyPush b =>
    exact ⟨.keyPush (fieldsOf w).arg, decode_of_fields w _ (fieldsOf_of_and_operandMask (.keyPush 0) h), rfl⟩
  | prgaXor m =>
    exact ⟨.prgaXor (fieldsOf w).arg, decode_of_fields w _ (fieldsOf_of_and_operandMask (.prgaXor 0) h), rfl⟩
  | nop => exact ⟨.nop, decode_of_and_fullMask h, rfl⟩
  | init => exact ⟨.init, decode_of_and_fullMask h, rfl⟩
  | ksaStep => exact ⟨.ksaStep, decode_of_and_fullMask h, rfl⟩
  | ksaRun => exact ⟨.ksaRun, decode_of_and_fullMask h, rfl⟩
  | errClear => exact ⟨.errClear, decode_of_and_fullMask h, rfl⟩

theorem row_accepts_iff {w : Word} {row : OpcodeRow} (hrow : row ∈ opcodeRows) :
    w &&& row.mask = row.pattern ↔ ∃ i, decode w = .ok i ∧ rowOf i = row := by
  obtain ⟨c, -, rfl⟩ := List.mem_map.1 hrow
  refine ⟨decode_of_row_accepts, ?_⟩
  rintro ⟨i, hi, hr⟩
  rw [← hr, ← encode_of_decode_ok hi]
  exact rowOf_accepts_encode i

theorem operand_of_decode {w : Word} {b : Byte} (h : decode w = .ok (.keyPush b) ∨ decode w = .ok (.prgaXor b)) :
    w.extractLsb' 8 8 = b := by
  rcases h with h | h
  · exact congrArg Fields.arg (decode_ok h)
  · exact congrArg Fields.arg (decode_ok h)

/-- Settles O2: two rows that accept one word are the row of the command it decodes to. -/
theorem decodeFollowsTheOpcodeRows : Obligations.DecodeFollowsTheOpcodeRows := by
  refine ⟨rfl, fun w row => row_accepts_iff, fun w x y hx hy hwx hwy => ?_, fun w b => operand_of_decode⟩
  obtain ⟨i, hi, rfl⟩ := (row_accepts_iff hx).1 hwx
  obtain ⟨j, hj, rfl⟩ := (row_accepts_iff hy).1 hwy
  rw [Except.ok.inj (hi.symm.trans hj)]

/-! ### The legal words counted -/

/-- The 256 operand bytes. -/
def allBytes : List Byte := (List.finRange 256).map BitVec.ofFin

theorem mem_allBytes (b : Byte) : b ∈ allBytes := List.mem_map.2 ⟨b.toFin, List.mem_finRange _, rfl⟩

theorem allBytes_nodup : allBytes.Nodup := (List.nodup_finRange 256).map fun _ _ => BitVec.ofFin.inj

theorem allBytes_length : allBytes.length = 256 := by simp [allBytes]

/-- The five commands with no operand, and each of the other two with every operand (R85). -/
def allCommands : List Instr :=
  [.nop, .init, .ksaStep, .ksaRun, .errClear] ++ (allBytes.map .keyPush ++ allBytes.map .prgaXor)

theorem mem_allCommands (i : Instr) : i ∈ allCommands := by
  cases i with
  | keyPush b => simp [allCommands, mem_allBytes b]
  | prgaXor m => simp [allCommands, mem_allBytes m]
  | _ => simp [allCommands]

theorem allCommands_nodup : allCommands.Nodup := by
  have hpush : (allBytes.map Instr.keyPush).Nodup := allBytes_nodup.map fun _ _ => Instr.keyPush.inj
  have hxor : (allBytes.map Instr.prgaXor).Nodup := allBytes_nodup.map fun _ _ => Instr.prgaXor.inj
  have hfive : [Instr.nop, .init, .ksaStep, .ksaRun, .errClear].Nodup := by decide
  refine hfive.append (hpush.append hxor ?_) ?_
  · simp [List.disjoint_left]
  · simp [List.disjoint_left]

theorem allCommands_length : allCommands.length = 517 := by simp [allCommands, allBytes_length]

/-- Settles O3: the words of the 517 commands, which are distinct because encode is one-to-one. -/
theorem exactlyFiveHundredSeventeenWordsAreLegal : Obligations.ExactlyFiveHundredSeventeenWordsAreLegal := by
  refine ⟨allCommands.map encode, allCommands_nodup.map encode_injective, ?_, fun w => ?_⟩
  · rw [List.length_map, allCommands_length]
  · simp only [List.mem_map, mem_allCommands, true_and, decode_eq_ok_iff]

/-! ### The illegal words -/

theorem wellFormed_iff (f : Fields) :
    f.WellFormed ↔ f.rsv0 = 0#4 ∧ f.rsv1 = 0#16 ∧ f.opc.toNat < 7 ∧ (f.arg = 0#8 ∨ f.opc = 2#4 ∨ f.opc = 5#4) := by
  have hopc : f.opc.toNat < 7 ↔ ¬ 6#4 < f.opc := by
    rw [BitVec.lt_def, show (6#4).toNat = 6 from rfl]
    omega
  have harg : (f.arg = 0#8 ∨ f.opc = 2#4 ∨ f.opc = 5#4) ↔ ¬ (f.arg ≠ 0#8 ∧ f.takesOperand = false) := by
    simp only [Fields.takesOperand, Bool.or_eq_false_iff, beq_eq_false_iff_ne]
    tauto
  rw [Fields.WellFormed, Fields.check, hopc, harg]
  split_ifs with h0 h1 h2 h3
  · exact iff_of_false nofun fun ⟨h, _⟩ => h0 h
  · exact iff_of_false nofun fun ⟨_, h, _⟩ => h1 h
  · exact iff_of_false nofun fun ⟨_, _, h, _⟩ => h h2
  · exact iff_of_false nofun fun ⟨_, _, _, h⟩ => h h3
  · exact iff_of_true rfl ⟨not_not.1 h0, not_not.1 h1, h2, h3⟩

/-- Legal fields are a command's fields: the table of R83 leaves no legal word out. -/
theorem exists_fields_eq {f : Fields} (h : f.WellFormed) : ∃ i : Instr, f = i.fields := by
  obtain ⟨h0, h1, hop, harg⟩ := (wellFormed_iff f).1 h
  rcases f with ⟨opc, rsv0, arg, rsv1⟩
  dsimp only at h0 h1 hop harg
  subst h0 h1
  by_cases hpush : opc = 2#4
  · exact ⟨.keyPush arg, by rw [hpush]; rfl⟩
  by_cases hxor : opc = 5#4
  · exact ⟨.prgaXor arg, by rw [hxor]; rfl⟩
  obtain rfl : arg = 0#8 := by simpa [hpush, hxor] using harg
  have hopc : opc = 0#4 ∨ opc = 1#4 ∨ opc = 3#4 ∨ opc = 4#4 ∨ opc = 6#4 := by bv_omega
  rcases hopc with rfl | rfl | rfl | rfl | rfl
  · exact ⟨.nop, rfl⟩
  · exact ⟨.init, rfl⟩
  · exact ⟨.ksaStep, rfl⟩
  · exact ⟨.ksaRun, rfl⟩
  · exact ⟨.errClear, rfl⟩

/-- A word is legal exactly when its fields pass the checks (R84, R85). -/
theorem decode_ok_iff_wellFormed (w : Word) : (∃ i, decode w = .ok i) ↔ (fieldsOf w).WellFormed := by
  constructor
  · rintro ⟨i, hi⟩
    rw [decode_ok hi]
    exact fields_wellFormed i
  · intro h
    obtain ⟨i, hi⟩ := exists_fields_eq h
    exact ⟨i, decode_of_fields w i hi⟩

theorem decode_error_iff_not_ok (w : Word) : (∃ e, decode w = .error e) ↔ ¬ ∃ i, decode w = .ok i := by
  cases decode w <;> simp

/-- Settles O4: a word is illegal when its fields fail a check, and then its write is the rejection with ILLEGAL. -/
theorem illegalWordsAreRejected : Obligations.IllegalWordsAreRejected := by
  refine fun w s => ⟨?_, fun ⟨x, hx⟩ => cmdWrite_of_illegal hx s⟩
  rw [decode_error_iff_not_ok, decode_ok_iff_wellFormed, wellFormed_iff]
  simp only [fieldsOf, not_and_or, not_or, not_lt, ne_eq]

/-- Settles O5: the words written out. -/
theorem encodingExamplesDecodeAsGiven : Obligations.EncodingExamplesDecodeAsGiven :=
  ⟨rfl, decode_encode (.keyPush 0x4B#8), rfl, decode_encode (.prgaXor 0x61#8), ⟨.reservedOpcode, rfl⟩,
    ⟨.argNotZero, rfl⟩, ⟨.rsv1NotZero, rfl⟩⟩

/-! ### A placed word -/

/-- A table word that decodes is placed as the write of one word to CMD (log entry 9). -/
theorem withFetchWord_of_decode {nbits w : Nat} {c : Instr} (h : decodeTableWord nbits w = some c) (s : State) :
    ∃ v, decode v = .ok c ∧ s.withFetchWord nbits w = present (Pins.write 0#10 v) s := by
  unfold decodeTableWord at h
  cases hv : tableWord nbits w with
  | none => simp [hv] at h
  | some v =>
    refine ⟨v, ?_, by rw [State.withFetchWord, hv]; rfl⟩
    cases hd : decode v with
    | error e => simp [hv, hd] at h
    | ok i => simpa [hv, hd] using h

/-- Settles O8, by what a step does with the command word written at its edge. -/
theorem placedWordRunsAtTheNextStep : Obligations.PlacedWordRunsAtTheNextStep := by
  intro s nbits w c hb hw
  obtain ⟨v, hv, hplaced⟩ := withFetchWord_of_decode hw s
  obtain ⟨u, t, hu, -, hexec, -, hstep⟩ :=
    stepRunsTheCommandWritten (present (Pins.write 0#10 v) s) v s.inputs rfl
  subst hu
  have hbusy : (present (Pins.write 0#10 v) s).busy = false := hb
  rw [hplaced, hstep, hbusy]
  exact (hexec c hv).symm

/-! ### The accesses of the assembly statements -/

/-- The word of an operand byte and an opcode is the byte moved to bits 15:8 and the opcode below it (R81, R82). -/
theorem wordOf_operand (b : Byte) (opc : BitVec 4) :
    wordOf ⟨opc, 0#4, b, 0#16⟩ = (b.setWidth 32 <<< 8) ||| opc.setWidth 32 := by
  have hb := b.isLt
  have hopc := opc.isLt
  have hsum := Nat.shiftLeft_add_eq_or_of_lt (show opc.toNat < 2 ^ 8 by omega) b.toNat
  apply BitVec.eq_of_toNat_eq
  rw [wordOf_toNat, BitVec.toNat_or, BitVec.toNat_shiftLeft, BitVec.toNat_setWidth_of_le (by decide),
    BitVec.toNat_setWidth_of_le (by decide), Nat.mod_eq_of_lt (by rw [Nat.shiftLeft_eq]; omega), ← hsum,
    Nat.shiftLeft_eq]
  simp

theorem encode_keyPush (b : Byte) : encode (.keyPush b) = (b.setWidth 32 <<< 8) ||| 0x2#32 := wordOf_operand b 0x2#4

theorem encode_prgaXor (m : Byte) : encode (.prgaXor m) = (m.setWidth 32 <<< 8) ||| 0x5#32 := wordOf_operand m 0x5#4

theorem assemble_operand (b : Byte) :
    assemble (.keyPush b.toNat) = .ok (issue (.keyPush b)) ∧ assemble (.prgaXor b.toNat) = .ok (issue (.prgaXor b)) := by
  have hb : b.toNat ≤ 255 := Nat.le_of_lt_succ b.isLt
  simp [assemble, hb]

theorem assemble_operand_range {n : Nat} (h : 255 < n) :
    assemble (.keyPush n) = .error (.operandRange n) ∧ assemble (.prgaXor n) = .error (.operandRange n) :=
  ⟨if_neg (by omega), if_neg (by omega)⟩

/-- A register's offset is an access that the port can express, at the register's word address (R52, R56). -/
theorem access_regOffset (reg : Reg) (v : Word) :
    memRead (regOffset reg) 4 = .ok (Pins.read (regAddr reg)) ∧
      memWrite (regOffset reg) 4 v = .ok (Pins.write (regAddr reg) v) := by
  have hlt := (regAddr reg).isLt
  obtain ⟨a, ha, hread, hwrite⟩ := (onlyAlignedWordAccessesExist (regOffset reg) 4 v).1 rfl
    (by rw [regOffset]; omega) (by rw [regOffset]; omega)
  obtain rfl : a = regAddr reg := BitVec.eq_of_toNat_eq (by rw [regOffset] at ha; omega)
  exact ⟨hread, hwrite⟩

/-- SBOX[k] is at offset 0x400 + 4k (R52). -/
theorem regOffset_sbox (k : Byte) : regOffset (.sbox k) = 0x400 + 4 * k.toNat := by
  have hk := k.isLt
  rw [regOffset, regAddr, BitVec.toNat_add, BitVec.toNat_setWidth_of_le (by decide), BitVec.toNat_ofNat]
  omega

/-- Settles O49, by the words of the two commands with an operand and the access at each register's offset. -/
theorem assemblyStatementsAreTheirAccesses : Obligations.AssemblyStatementsAreTheirAccesses := by
  refine ⟨rfl, rfl, rfl, rfl, rfl, fun b => ?_, fun n => assemble_operand_range, fun reg v => ?_, regOffset_sbox⟩
  · obtain ⟨hpush, hxor⟩ := assemble_operand b
    rw [hpush, hxor, issue, issue, encode_keyPush, encode_prgaXor]
    exact ⟨rfl, rfl⟩
  · obtain ⟨hread, hwrite⟩ := access_regOffset reg v
    exact ⟨regAddr reg, rfl, hwrite, rfl, hread, rfl⟩

end Sys2Proof.Machine
end

section
/-! PROOFS. The control commands (40_control.md): NOP has no effect (R100), INIT starts from the identity permutation (R101),
ERR_CLEAR clears ERR at its write (R102), and every other word with one of their opcodes is illegal. -/

namespace Sys2Proof.Machine

/-! ### Words with the opcode of a command that takes no operand -/

/-- With no operand, the opcode of legal fields determines the other three (R83, R84). -/
theorem fields_eq_of_opc_eq {f g : Fields} (hf : f.WellFormed) (hg : g.WellFormed) (hopc : f.opc = g.opc)
    (hno : g.takesOperand = false) : f = g := by
  obtain ⟨hpush, hxor⟩ : g.opc ≠ 2#4 ∧ g.opc ≠ 5#4 := by simpa [Fields.takesOperand] using hno
  have hrest : ∀ {e : Fields}, e.WellFormed → e.opc = g.opc → e = ⟨g.opc, 0#4, 0#8, 0#16⟩ := by
    intro e he heq
    obtain ⟨h0, h1, -, harg | h2 | h5⟩ := (wellFormed_iff e).1 he
    · rw [← heq, ← h0, ← h1, ← harg]
    · exact absurd (heq.symm.trans h2) hpush
    · exact absurd (heq.symm.trans h5) hxor
  rw [hrest hf hopc, ← hrest hg rfl]

/-- The only legal word with the opcode of a command that takes no operand is that command's word (R83). -/
theorem eq_encode_of_opc_eq {w : Word} {c i : Instr} (hno : c.fields.takesOperand = false)
    (hopc : w.extractLsb' 0 4 = c.fields.opc) (hi : decode w = .ok i) : w = encode c := by
  have hfields : i.fields = c.fields :=
    fields_eq_of_opc_eq (fields_wellFormed i) (fields_wellFormed c) (by rw [← decode_ok hi]; exact hopc) hno
  rw [← encode_of_decode_ok hi, encode, encode, hfields]

/-- Any other word with that opcode is rejected with ILLEGAL, busy or not (R84, R200). -/
theorem cmdWrite_of_opc_eq {w : Word} (c : Instr) (s : State) (hno : c.fields.takesOperand = false)
    (hopc : w.extractLsb' 0 4 = c.fields.opc) (hw : w ≠ encode c) : cmdWrite w s = .next { s with err := 1 } := by
  cases hd : decode w with
  | error x => exact cmdWrite_of_illegal hd s
  | ok i => exact absurd (eq_encode_of_opc_eq hno hopc hd) hw

/-! ### NOP -/

/-- Settles O20: NOP answers the state, and its opcode has no other legal word. -/
theorem nopDoesNothing : Obligations.NopDoesNothing :=
  ⟨decode_encode .nop, fun _ => rfl, fun _ s hopc hw => cmdWrite_of_opc_eq .nop s rfl hopc hw⟩

/-! ### ERR_CLEAR -/

/-- The completion of the command in flight neither reads nor writes ERR (R102, R208). -/
theorem complete_clearErr (s : State) : complete (clearErr s) = clearErr (complete s) := by
  have h := complete_withUntouched (s := s) (o := clearErr s) rfl
  rw [show withUntouched s (clearErr s) = clearErr s from rfl] at h
  rw [h]
  simp [complete, clearErr]

/-- Settles O21: the write clears ERR alone, and the completion passes ERR on. -/
theorem errClearClearsErrAtTheWrite : Obligations.ErrClearClearsErrAtTheWrite :=
  ⟨decode_encode .errClear, fun _ => rfl, fun _ s hopc hw => cmdWrite_of_opc_eq .errClear s rfl hopc hw,
    complete_clearErr⟩

/-! ### INIT -/

/-- No phase and no key length keeps INIT from being accepted (R101, R202). -/
theorem admitted_init (s : State) : Admitted .init s := ⟨rfl, rfl, nofun, nofun⟩

theorem exec_init_idle {s : State} (hb : s.busy = false) : exec .init s = .next (accept .init s) :=
  congrArg Host.Outcome.next (submit_of_admitted rfl hb (admitted_init s))

theorem exec_init_busy {s : State} (hb : s.busy = true) : exec .init s = .next (reject .busy s) := by
  obtain ⟨t, ht⟩ := exec_answers .init s
  rw [ht, exec_busy rfl hb ht]

/-- Settles O22: acceptance by the checks, which INIT passes in every phase; its completion is its effect, and the
identity table's entries are their indices. -/
theorem initStartsFromTheIdentity : Obligations.InitStartsFromTheIdentity := by
  refine ⟨decode_encode .init, fun s hb => ?_, fun s => exec_init_busy, fun w s => cmdWrite_of_opc_eq .init s rfl⟩
  exact ⟨accept .init s, identityTable, exec_init_idle hb, rfl, entry_identityTable, complete_accept .init s⟩

end Sys2Proof.Machine
end

section
/-! PROOFS. Key loading (41_key.md): KEY_PUSH appends one byte to the key (R120). -/

namespace Sys2Proof.Machine

/-! ### The write of a command that sets BUSY -/

theorem exec_eq_submit {c : Instr} (hc : setsBusy c = true) (s : State) : exec c s = .next (submit c s) := by
  cases c with
  | nop => cases hc
  | errClear => cases hc
  | init => rfl
  | keyPush b => rfl
  | ksaStep => rfl
  | ksaRun => rfl
  | prgaXor m => rfl

/-- With nothing in flight, an admitted command is accepted (R200). -/
theorem exec_of_admitted {c : Instr} {s : State} (hb : s.busy = false) (h : Admitted c s) :
    exec c s = .next (accept c s) := by
  rw [exec_eq_submit h.1, submit_of_admitted h.1 hb h]

/-- A command that fails a check is rejected with that check's code (R200). -/
theorem exec_of_rejection {c : Instr} {s : State} {code : ErrCode} (hc : setsBusy c = true)
    (hr : rejectionOf c s = some code) : exec c s = .next (reject code s) := by
  rw [exec_eq_submit hc, submit, hr]

/-- The second check of R200: the phase. -/
theorem rejectionOf_of_wrong_phase {c : Instr} {s : State} (hb : s.busy = false) (hp : phaseOk c s.phase = false) :
    rejectionOf c s = some .state := by
  simp [rejectionOf, hb, hp]

/-! ### KEY_PUSH -/

theorem phaseOk_keyPush (b : Byte) (p : Phase) : phaseOk (.keyPush b) p = true ↔ p = .ready := by
  cases p <;> simp [phaseOk]

/-- KEY_PUSH is admitted in READY while the key buffer has room (R202). -/
theorem admitted_keyPush (b : Byte) {s : State} (hp : s.phase = .ready) (hk : s.klen ≠ 256#9) :
    Admitted (.keyPush b) s :=
  ⟨rfl, (phaseOk_keyPush b s.phase).2 hp, nofun, fun _ => hk⟩

/-- The last check of R200: a full key buffer. -/
theorem rejectionOf_of_full_key (b : Byte) {s : State} (hb : s.busy = false) (hp : s.phase = .ready)
    (hk : s.klen = 256#9) : rejectionOf (.keyPush b) s = some .keyFull := by
  simp [rejectionOf, hb, hp, hk, phaseOk, needsKey, appendsKey]

/-- KEY_PUSH stores at index KLEN while that is a table index (R120). -/
theorem entry_keyPushEffect {s : State} (b : Byte) (hk : s.klen.toNat < 256) (k : Byte) :
    entry (keyPushEffect b s).key k = if k.toNat = s.klen.toNat then b else entry s.key k := by
  have hidx : k = pushIndex s.klen ↔ k.toNat = s.klen.toNat := by rw [← pushIndex_toNat hk, BitVec.toNat_inj]
  rw [keyPushEffect_key, entry_setEntry]
  exact if_congr hidx rfl rfl

/-- Settles O23: acceptance and rejection by the checks of R200; the completion is the command's effect. -/
theorem keyPushAppendsOneByte : Obligations.KeyPushAppendsOneByte := by
  refine fun s b => ⟨encode_keyPush b, decode_eq_ok_iff.2 (encode_keyPush b), fun hb hp hk => ?_, fun hb => ?_,
    fun hb hp => ?_, fun hb hp hk => ?_⟩
  · have hroom : s.klen ≠ 256#9 := by bv_omega
    have hc := complete_accept (.keyPush b) s
    exact ⟨accept (.keyPush b) s, (keyPushEffect b s).key, exec_of_admitted hb (admitted_keyPush b hp hroom), rfl,
      entry_keyPushEffect b hk, hc, (congrArg (·.klen.toNat) hc).trans (toNat_add_one (by omega))⟩
  · exact exec_of_rejection rfl (rejectionOf_busy _ hb)
  · have hphase : phaseOk (.keyPush b) s.phase = false := Bool.eq_false_iff.2 (mt (phaseOk_keyPush b s.phase).1 hp)
    exact exec_of_rejection rfl (rejectionOf_of_wrong_phase hb hphase)
  · exact exec_of_rejection rfl (rejectionOf_of_full_key b hb hp hk)

end Sys2Proof.Machine
end

section
/-! PROOFS. Key scheduling (42_ksa.md): one round (R130, R131), KSA_STEP and KSA_RUN (R132, R133), and that neither the split
of the rounds between the two nor anything but the key shows in the scheduled table (R134, R135). -/

namespace Sys2Proof.Machine

/-! ### One round -/

theorem add_one_eq_256_iff (r : BitVec 9) : r + 1 = 256#9 ↔ r.toNat = 255 := by
  bv_omega

theorem entry_swapEntries_left (t : Table) (a b : Byte) : entry (swapEntries t a b) a = entry t b := by
  rw [entry_swapEntries, if_pos rfl]

theorem entry_swapEntries_right (t : Table) (a b : Byte) : entry (swapEntries t a b) b = entry t a := by
  rw [entry_swapEntries, if_pos rfl]
  split_ifs with h
  · rw [h]
  · rfl

/-- The accumulator's sum is reduced once (R130). -/
theorem ksaNextJ_toNat (s : State) : (ksaNextJ s).toNat = (s.j.toNat + (entry s.sbox (roundIndex s.r)).toNat +
    (entry s.key (keyIndex (roundIndex s.r) s.klen)).toNat) % 256 := by
  simp [ksaNextJ, sumMod256, Nat.add_assoc]

/-- A round that leaves rounds to run (R130). -/
theorem ksaRound_eq_of_lt {s : State} (hr : s.r.toNat < 255) : ksaRound s =
    { s with sbox := swapEntries s.sbox (roundIndex s.r) (ksaNextJ s), j := ksaNextJ s, r := s.r + 1 } := by
  rcases ksaRound_cases s with ⟨-, hs⟩ | ⟨heq, -⟩
  · exact hs
  · exact absurd ((add_one_eq_256_iff s.r).1 heq) (Nat.ne_of_lt hr)

/-- The round that makes R = 256 (R131). -/
theorem ksaRound_eq_of_last {s : State} (hr : s.r.toNat = 255) : ksaRound s =
    { s with sbox := swapEntries s.sbox (roundIndex s.r) (ksaNextJ s), j := 0, i := 0, kscount := 0, phase := .keyed
             r := 256#9 } := by
  rcases ksaRound_cases s with ⟨hne, -⟩ | ⟨-, hs⟩
  · exact absurd ((add_one_eq_256_iff s.r).2 hr) hne
  · exact hs

/-- A round counts R up by one (R25). -/
theorem ksaRound_r_toNat {s : State} (hr : s.r.toNat ≤ 255) : (ksaRound s).r.toNat = s.r.toNat + 1 := by
  rw [ksaRound_r, toNat_add_one hr]

/-- Settles O28: the round at R = 255 is the one that finishes the KSA. -/
theorem lastKsaRoundFinishes : Obligations.LastKsaRoundFinishes := by
  intro s hr
  rw [ksaRound_eq_of_last hr]
  rfl

/-- Settles O27: the indices are R itself and a key index below KLEN, and the table is the swap's. -/
theorem ksaRoundFollowsItsRule : Obligations.KsaRoundFollowsItsRule := by
  intro s hr hk
  have hrr : (roundIndex s.r).toNat = s.r.toNat := roundIndex_toNat hr
  refine ⟨roundIndex s.r, keyIndex (roundIndex s.r) s.klen, ksaNextJ s, swapEntries s.sbox (roundIndex s.r) (ksaNextJ s),
    hrr, hrr ▸ (keyIndex_toNat _ hk).1, ksaNextJ_toNat s, sumMod256_triple _ _ _, entry_swapEntries_left _ _ _,
    entry_swapEntries_right _ _ _, fun k hrk hjk => ?_, toNat_add_one hr, ksaRound_eq_of_lt, ksaRound_eq_of_last⟩
  rw [entry_swapEntries, if_neg hrk, if_neg hjk]

/-! ### Many rounds -/

theorem ksaRounds_eq_iterate (n : Nat) (s : State) : ksaRounds n s = ksaRound^[n] s := by
  induction n generalizing s with
  | zero => rfl
  | succ n ih => exact ih (ksaRound s)

theorem ksaRounds_r_toNat {n : Nat} {s : State} (h : s.r.toNat + n ≤ 256) :
    (ksaRounds n s).r.toNat = s.r.toNat + n := by
  induction n generalizing s with
  | zero => rfl
  | succ n ih =>
    have hr : (ksaRound s).r.toNat = s.r.toNat + 1 := ksaRound_r_toNat (by omega)
    rw [ksaRounds, ih (by omega)]
    omega

/-- All rounds left end as the last of them does: in KEYED, with the KSA finished (R131, R133). -/
theorem ksaRunEffect_finishes {s : State} (hr : s.r.toNat ≤ 255) :
    ksaRunEffect s = { ksaRunEffect s with r := 256, phase := .keyed, i := 0, j := 0, kscount := 0 } := by
  have hn : 256 - s.r.toNat = (255 - s.r.toNat) + 1 := by omega
  have hlast : (ksaRounds (255 - s.r.toNat) s).r.toNat = 255 := by rw [ksaRounds_r_toNat (by omega)]; omega
  have hrun : ksaRunEffect s = ksaRound (ksaRounds (255 - s.r.toNat) s) := by rw [ksaRunEffect, hn, ksaRounds_add]; rfl
  rw [hrun, lastKsaRoundFinishes _ hlast]

/-- KSA_RUN's rounds are one round and then KSA_RUN's rounds (R133). -/
theorem ksaRunEffect_ksaRound {s : State} (hr : s.r.toNat ≤ 255) : ksaRunEffect (ksaRound s) = ksaRunEffect s := by
  have hn : 256 - s.r.toNat = (256 - (ksaRound s).r.toNat) + 1 := by rw [ksaRound_r_toNat hr]; omega
  rw [ksaRunEffect, ksaRunEffect, hn]
  rfl

theorem ksaRound_finish (s : State) : ksaRound (finish s) = finish (ksaRound s) := by
  have hu := ksaRound_untouched s
  simp only [untouched, Prod.mk.injEq] at hu
  obtain ⟨-, -, he, hx, -, hi, hd⟩ := hu
  rw [show finish s = withUntouched s (finish s) from rfl, ksaRound_withUntouched]
  simp only [withUntouched, finish, he, hx, hi, hd]

theorem ksaRunEffect_finish (s : State) : ksaRunEffect (finish s) = finish (ksaRunEffect s) := by
  have h : ∀ n, ksaRounds n (finish s) = finish (ksaRounds n s) := fun n => by
    rw [ksaRounds_eq_iterate, ksaRounds_eq_iterate]
    exact (Function.Commute.iterate_left ksaRound_finish n) s
  exact h _

/-- The state with another phase. -/
def withPhase (p : Phase) (s : State) : State := { s with phase := p }

/-- KSA_RUN's rounds do not read PHASE, and the last of them overwrites it. -/
theorem ksaRunEffect_withPhase {s : State} (p : Phase) (hr : s.r.toNat ≤ 255) :
    ksaRunEffect (withPhase p s) = ksaRunEffect s := by
  obtain ⟨n, hn⟩ := Nat.exists_eq_add_of_le hr
  induction n generalizing s with
  | zero =>
    have hround : ksaRound (withPhase p s) = ksaRound s := by
      rw [ksaRound_eq_of_last hn.symm, ksaRound_eq_of_last (s := withPhase p s) hn.symm]
      rfl
    rw [← ksaRunEffect_ksaRound (s := withPhase p s) hr, hround, ksaRunEffect_ksaRound hr]
  | succ n ih =>
    have hround : ksaRound (withPhase p s) = withPhase p (ksaRound s) := by
      have hlt : s.r.toNat < 255 := by omega
      rw [ksaRound_eq_of_lt hlt, ksaRound_eq_of_lt (s := withPhase p s) hlt]
      rfl
    have hr' := ksaRound_r_toNat hr
    rw [← ksaRunEffect_ksaRound (s := withPhase p s) hr, hround, ih (by omega) (by omega), ksaRunEffect_ksaRound hr]

/-! ### The two commands that run rounds -/

/-- The commands that need a key are the two that run KSA rounds. -/
theorem eq_of_needsKey {c : Instr} (hc : needsKey c = true) : c = .ksaStep ∨ c = .ksaRun := by
  cases c <;> simp_all [needsKey]

theorem setsBusy_of_needsKey {c : Instr} (hc : needsKey c = true) : setsBusy c = true := by
  rcases eq_of_needsKey hc with rfl | rfl <;> rfl

theorem appendsKey_of_needsKey {c : Instr} (hc : needsKey c = true) : appendsKey c = false := by
  rcases eq_of_needsKey hc with rfl | rfl <;> rfl

/-- The commands that need a key are admitted until the KSA has ended (R202). -/
theorem phaseOk_iff_of_needsKey {c : Instr} (hc : needsKey c = true) (p : Phase) :
    phaseOk c p = true ↔ p = .ready ∨ p = .ksa := by
  rcases eq_of_needsKey hc with rfl | rfl <;> cases p <;> simp [phaseOk]

/-- The third check of R200: the key. -/
theorem rejectionOf_of_no_key {c : Instr} {s : State} (hc : needsKey c = true) (hb : s.busy = false)
    (hp : phaseOk c s.phase = true) (hk : s.klen = 0#9) : rejectionOf c s = some .keyEmpty := by
  simp [rejectionOf, hb, hp, hc, hk]

/-- How KSA_STEP and KSA_RUN are rejected (R132, R133, R200). -/
theorem exec_rejections_of_needsKey {c : Instr} (hc : needsKey c = true) (s : State) :
    (s.busy = true → exec c s = .next (reject .busy s)) ∧
      (s.busy = false → s.phase = .keyed → exec c s = .next (reject .state s)) ∧
      (s.busy = false → s.phase = .ready → s.klen = 0#9 → exec c s = .next (reject .keyEmpty s)) := by
  have hset := setsBusy_of_needsKey hc
  refine ⟨fun hb => ?_, fun hb hp => ?_, fun hb hp hk => ?_⟩
  · exact exec_of_rejection hset (rejectionOf_busy c hb)
  · have hphase : phaseOk c s.phase = false := by
      rw [← Bool.not_eq_true, phaseOk_iff_of_needsKey hc, hp]
      simp
    exact exec_of_rejection hset (rejectionOf_of_wrong_phase hb hphase)
  · exact exec_of_rejection hset (rejectionOf_of_no_key hc hb ((phaseOk_iff_of_needsKey hc _).2 (.inl hp)) hk)

/-- Nothing is in flight, there is a key, and rounds are left: KSA_STEP and KSA_RUN are accepted (R132, R133). -/
structure AcceptsKsa (s : State) : Prop where
  idle : s.busy = false
  phase : s.phase = .ready ∨ s.phase = .ksa
  key : 1 ≤ s.klen.toNat
  round : s.r.toNat ≤ 255

theorem AcceptsKsa.admitted {c : Instr} {s : State} (h : AcceptsKsa s) (hc : needsKey c = true) : Admitted c s := by
  refine ⟨setsBusy_of_needsKey hc, (phaseOk_iff_of_needsKey hc _).2 h.phase, fun _ hk => ?_, fun ha => ?_⟩
  · have hkey := h.key
    rw [hk] at hkey
    exact absurd hkey (by decide)
  · rw [appendsKey_of_needsKey hc] at ha
    cases ha

theorem AcceptsKsa.exec_eq {c : Instr} {s : State} (h : AcceptsKsa s) (hc : needsKey c = true) :
    exec c s = .next (accept c s) := exec_of_admitted h.idle (h.admitted hc)

/-- Under the invariant the rounds left and, in KSA, the key follow from the phase (R35). -/
theorem MachineInv.acceptsKsa {s : State} (h : MachineInv s) (hb : s.busy = false)
    (hp : s.phase = .ready ∨ s.phase = .ksa) (hk : s.klen ≠ 0) : AcceptsKsa s := by
  obtain ⟨-, hsettled, -⟩ := h
  have hne : s.phase ≠ .keyed := by rcases hp with hp | hp <;> simp [hp]
  have hkey : s.klen.toNat ≠ 0 := fun e => hk (BitVec.eq_of_toNat_eq e)
  exact ⟨hb, hp, Nat.one_le_iff_ne_zero.2 hkey, ((hsettled hb).round_of_not_keyed hne).1⟩

/-- KSA_STEP's effect is one round, with PHASE by whether rounds remain (R132). -/
theorem ksaStepEffect_eq {s : State} (hr : s.r.toNat ≤ 255) :
    ksaStepEffect s = { ksaRound s with phase := if s.r.toNat = 255 then .keyed else .ksa } := by
  have hr' := ksaRound_r_toNat hr
  rcases ksaStepEffect_cases s with ⟨hlt, hs⟩ | ⟨hge, hs⟩
  · rw [hs, if_neg (by bv_omega)]
  · have hlast : s.r.toNat = 255 := by bv_omega
    rw [hs, if_pos hlast, ← ksaRound_last_phase hlast]

/-- Settles O24: the checks of R200 with the round that is the command's effect. -/
theorem ksaStepRunsOneRound : Obligations.KsaStepRunsOneRound := by
  refine fun s => ⟨decode_encode .ksaStep, fun hb hp hk hr => ?_, exec_rejections_of_needsKey rfl s⟩
  have hacc : AcceptsKsa s := ⟨hb, hp, hk, hr⟩
  refine ⟨accept .ksaStep s, hacc.exec_eq rfl, rfl, ?_⟩
  rw [complete_accept, effect_ksaStep, ksaStepEffect_eq hr]

/-- Settles O25: the checks of R200 with all the rounds left, which end as the last of them does. -/
theorem ksaRunRunsAllRemainingRounds : Obligations.KsaRunRunsAllRemainingRounds := by
  refine fun s => ⟨decode_encode .ksaRun, fun hb hp hk hr => ?_, exec_rejections_of_needsKey rfl s⟩
  have hacc : AcceptsKsa s := ⟨hb, hp, hk, hr⟩
  have hrun : ksaRound^[256 - s.r.toNat] s = ksaRunEffect s := (ksaRounds_eq_iterate _ s).symm
  have hfin := ksaRunEffect_finishes hr
  rw [hrun]
  refine ⟨accept .ksaRun s, hacc.exec_eq rfl, rfl, ?_, congrArg State.r hfin, congrArg State.phase hfin⟩
  rw [complete_accept, effect_ksaRun, hfin]

/-! ### Splitting the rounds between the commands -/

theorem performAll_append (cs ds : List Instr) (s : State) :
    performAll (cs ++ ds) s = performAll ds (performAll cs s) := by
  induction cs generalizing s with
  | nil => rfl
  | cons c cs ih => exact ih (perform c s)

/-- An accepted command, once completed, has had its effect and nothing is in flight (R31). -/
theorem perform_of_admitted {c : Instr} {s : State} (hb : s.busy = false) (h : Admitted c s) :
    perform c s = finish (effect c s) := by
  simp only [perform, exec_of_admitted hb h, hb, accept_busy, and_self, if_true, complete_accept]
  rfl

theorem AcceptsKsa.perform_ksaRun {s : State} (h : AcceptsKsa s) : perform .ksaRun s = finish (ksaRunEffect s) :=
  perform_of_admitted h.idle (h.admitted rfl)

theorem AcceptsKsa.perform_ksaStep {s : State} (h : AcceptsKsa s) (hr : s.r.toNat < 255) :
    perform .ksaStep s = finish (withPhase .ksa (ksaRound s)) := by
  rw [perform_of_admitted h.idle (h.admitted rfl), effect_ksaStep, ksaStepEffect_eq h.round, if_neg (Nat.ne_of_lt hr)]
  rfl

/-- A KSA_STEP that leaves rounds to run leaves the engine accepting KSA commands, one round on. -/
theorem AcceptsKsa.after_ksaStep {s : State} (h : AcceptsKsa s) (hr : s.r.toNat < 255) :
    AcceptsKsa (perform .ksaStep s) ∧ (perform .ksaStep s).r.toNat = s.r.toNat + 1 := by
  have hr' := ksaRound_r_toNat h.round
  rw [h.perform_ksaStep hr]
  exact ⟨⟨rfl, .inr rfl, (ksaRound_klen s).symm ▸ h.key, hr'.trans_le hr⟩, hr'⟩

/-- KSA_RUN reaches the same state whether or not a KSA_STEP ran the first of its rounds. -/
theorem AcceptsKsa.ksaRun_after_ksaStep {s : State} (h : AcceptsKsa s) (hr : s.r.toNat < 255) :
    perform .ksaRun (perform .ksaStep s) = perform .ksaRun s := by
  have hr' := ksaRound_r_toNat h.round
  rw [(h.after_ksaStep hr).1.perform_ksaRun, h.perform_ksaStep hr, ksaRunEffect_finish, ksaRunEffect_withPhase _ (by omega),
    ksaRunEffect_ksaRound h.round, h.perform_ksaRun]
  rfl

/-- KSA_RUN reaches the same state after any number of KSA_STEP commands that leaves a round to run (R134). -/
theorem AcceptsKsa.after_ksaSteps {n : Nat} {s : State} (h : AcceptsKsa s) (hn : s.r.toNat + n ≤ 255) :
    AcceptsKsa (performAll (List.replicate n .ksaStep) s) ∧
      (performAll (List.replicate n .ksaStep) s).r.toNat = s.r.toNat + n ∧
      perform .ksaRun (performAll (List.replicate n .ksaStep) s) = perform .ksaRun s := by
  induction n generalizing s with
  | zero => exact ⟨h, rfl, rfl⟩
  | succ n ih =>
    obtain ⟨h', hr'⟩ := h.after_ksaStep (by omega)
    obtain ⟨hacc, hround, hrun⟩ := ih h' (by omega)
    exact ⟨hacc, hround.trans (by omega), hrun.trans (h.ksaRun_after_ksaStep (by omega))⟩

/-- With one round left the two commands are the same. -/
theorem AcceptsKsa.perform_last {s : State} (h : AcceptsKsa s) (hr : s.r.toNat = 255) :
    perform .ksaStep s = perform .ksaRun s := by
  have hstep : ksaStepEffect s = ksaRunEffect s := by
    rw [ksaStepEffect_eq h.round, if_pos hr, ← ksaRound_last_phase hr, ksaRunEffect, hr]
    rfl
  rw [h.perform_ksaRun, perform_of_admitted h.idle (h.admitted rfl), effect_ksaStep, hstep]

/-- Settles O29: all steps but the last leave KSA_RUN's result as it was, and the last step is that KSA_RUN. -/
theorem stepsAndRunReachTheSameState : Obligations.StepsAndRunReachTheSameState := by
  intro s hi hb hp hk
  have hacc : AcceptsKsa s := hi.acceptsKsa hb hp hk
  have hround := hacc.round
  have hn : 256 - s.r.toNat = (255 - s.r.toNat) + 1 := by omega
  obtain ⟨hacc', hlast, hrun⟩ := hacc.after_ksaSteps (n := 255 - s.r.toNat) (by omega)
  rw [hn, List.replicate_succ', performAll_append]
  exact (hacc'.perform_last (by omega)).trans hrun

/-! ### What the scheduled table depends on -/

/-- KSA_STEP commands in front of it do not change what KSA_RUN from READY reaches (R135). -/
theorem performAll_split_of_ready {n : Nat} {s : State} (h : AcceptsKsa s) (hr : s.r = 0) (hn : n ≤ 255) :
    performAll (List.replicate n .ksaStep ++ [.ksaRun]) s = finish (ksaRunEffect s) := by
  obtain ⟨-, -, hrun⟩ := h.after_ksaSteps (n := n) (by simp [hr, hn])
  rw [performAll_append, ← h.perform_ksaRun]
  exact hrun

/-- Idle states in READY have the register values that R35 gives. -/
theorem MachineInv.ready_facts {s : State} (h : MachineInv s) (hb : s.busy = false) (hp : s.phase = .ready) :
    s.r = 0 ∧ s.i = 0 ∧ s.j = 0 ∧ s.ks = 0 ∧ s.dout = 0 ∧ s.kscount = 0 ∧ s.sbox = identityTable := by
  obtain ⟨-, hsettled, -⟩ := h
  obtain ⟨-, -, hf⟩ := hsettled hb
  exact (phaseFacts_ready hp).1 hf

/-- Two idle READY states with the same key length differ in K and in fields that no effect touches only (R35). -/
theorem eq_of_ready {s t : State} (hs : MachineInv s) (ht : MachineInv t) (hbs : s.busy = false) (hbt : t.busy = false)
    (hps : s.phase = .ready) (hpt : t.phase = .ready) (hk : t.klen = s.klen) :
    t = withUntouched (withKey t.key s) t := by
  obtain ⟨hr, hi, hj, hks, hd, hc, hsb⟩ := hs.ready_facts hbs hps
  obtain ⟨hr', hi', hj', hks', hd', hc', hsb'⟩ := ht.ready_facts hbt hpt
  cases t
  simp_all [withUntouched, withKey]

/-- With R = 0 the rounds left are 256, whatever KLEN is (R135). -/
theorem ksaRunEffect_of_r_zero {s : State} (hr : s.r = 0) : ksaRunEffect s = ksaRounds 256 s := by
  rw [ksaRunEffect, hr]
  rfl

/-- Settles O30: KSA_RUN after any steps is KSA_RUN alone, whose rounds read of K only the bytes below KLEN. -/
theorem scheduledTableDependsOnlyOnTheKey : Obligations.ScheduledTableDependsOnlyOnTheKey := by
  refine ⟨fun s => isPermutation_ksaRound, fun s t n m his hit hbs hbt hps hpt hk hkt hkey hn hm => ?_⟩
  obtain ⟨hrs, -⟩ := his.ready_facts hbs hps
  obtain ⟨hrt, -⟩ := hit.ready_facts hbt hpt
  have has : AcceptsKsa s := ⟨hbs, .inl hps, hk, by simp [hrs]⟩
  have hat : AcceptsKsa t := ⟨hbt, .inl hpt, by rwa [hkt], by simp [hrt]⟩
  have htable : (ksaRounds 256 t).sbox = (ksaRounds 256 s).sbox := by
    rw [eq_of_ready his hit hbs hbt hps hpt hkt, ksaRounds_withUntouched, ksaRounds_withKey 256 hk hkey]
    simp only [withUntouched, withKey]
  rw [performAll_split_of_ready has hrs hn, performAll_split_of_ready hat hrt hm, finish_sbox, finish_sbox, finish_r]
  refine ⟨?_, ?_, congrArg State.r (ksaRunEffect_finishes has.round)⟩
  · rw [ksaRunEffect_of_r_zero hrs, ksaRunEffect_of_r_zero hrt, htable]
  · rw [ksaRunEffect_of_r_zero hrs, ksaRounds_eq_iterate]

end Sys2Proof.Machine
end

section
/-! PROOFS. Keystream generation and XOR (43_prga.md): one round (R150), the XOR (R151), PRGA_XOR (R152), the length laws
(R154), and that the same sequence on the outputs gives the message back (R153). -/

namespace Sys2Proof.Machine

/-! ### One round -/

/-- A pair of bytes is summed on naturals and reduced once (R12). -/
theorem sumMod256_pair_toNat (x y : Byte) : (sumMod256 [x, y]).toNat = (x.toNat + y.toNat) % 256 := by
  rw [sumMod256_pair, BitVec.toNat_add]

/-- A swap of different indices changes both entries of a permutation (R22). -/
theorem entry_swapEntries_ne {t : Table} {a b k : Byte} (h : IsPermutation t) (hab : a ≠ b) (hk : k = a ∨ k = b) :
    entry (swapEntries t a b) k ≠ entry t k := by
  rcases hk with rfl | rfl
  · rw [entry_swapEntries_left]
    exact fun he => hab (h.injective he).symm
  · rw [entry_swapEntries_right]
    exact fun he => hab (h.injective he)

/-- Settles O31: the round's table is the swap's, so the two entries are exchanged and their sum is kept. -/
theorem prgaRoundFollowsItsRule : Obligations.PrgaRoundFollowsItsRule := by
  intro s
  obtain ⟨i', hi⟩ : ∃ i', i' = (prgaRound s).i := ⟨_, rfl⟩
  obtain ⟨j', hj⟩ : ∃ j', j' = (prgaRound s).j := ⟨_, rfl⟩
  have hround : prgaRound s = { s with i := i', j := j', sbox := swapEntries s.sbox i' j' } := by rw [hi, hj]; rfl
  have hleft := entry_swapEntries_left s.sbox i' j'
  have hright := entry_swapEntries_right s.sbox i' j'
  refine ⟨i', j', sumMod256 [entry (swapEntries s.sbox i' j') i', entry (swapEntries s.sbox i' j') j'],
    swapEntries s.sbox i' j', ?_, ?_, hleft, hright, fun k hki hkj => ?_, hround, sumMod256_pair_toNat _ _, ?_, ?_,
    entry_swapEntries_ne⟩
  · rw [hi, prgaRound_i, sumMod256_pair_toNat]; rfl
  · rw [hj, hi, prgaRound_j, sumMod256_pair_toNat]; rfl
  · rw [entry_swapEntries, if_neg hki, if_neg hkj]
  · rw [hround]; rfl
  · rw [hleft, hright, Nat.add_comm]

/-- What a PRGA round reads and writes: S, I and J (R150). -/
def prgaRegs (s : State) : Table × Byte × Byte := (s.sbox, s.i, s.j)

/-- The keystream byte of the next round and the registers after it depend on S, I and J alone (R150). -/
theorem prgaRound_congr {s t : State} (h : prgaRegs s = prgaRegs t) :
    keystreamByte (prgaRound s) = keystreamByte (prgaRound t) ∧ prgaRegs (prgaRound s) = prgaRegs (prgaRound t) := by
  simp only [prgaRegs, Prod.mk.injEq] at h
  obtain ⟨hsbox, hi, hj⟩ := h
  simp only [keystreamByte, prgaRegs, prgaRound_sbox, prgaRound_i, prgaRound_j, hsbox, hi, hj, and_self]

/-! ### The XOR -/

theorem xorByte_xorByte (m ks : Byte) : xorByte (xorByte m ks) ks = m := by
  rw [xorByte, xorByte, BitVec.xor_assoc, BitVec.xor_self, BitVec.xor_zero]

/-- Settles O32. -/
theorem xorIsBitwiseAndSelfInverse : Obligations.XorIsBitwiseAndSelfInverse :=
  fun m ks => ⟨xorByte_xorByte m ks, fun _ _ => BitVec.getLsbD_xor⟩

/-- XOR with one keystream twice gives the message back (R151). -/
theorem zipWith_xorByte_twice {msg ks : List Byte} (h : ks.length = msg.length) :
    List.zipWith xorByte (List.zipWith xorByte msg ks) ks = msg := by
  induction msg generalizing ks with
  | nil => rfl
  | cons m msg ih =>
    cases ks with
    | nil => cases h
    | cons k ks => rw [List.zipWith_cons_cons, List.zipWith_cons_cons, xorByte_xorByte, ih (Nat.succ.inj h)]

/-! ### PRGA_XOR -/

theorem phaseOk_prgaXor (m : Byte) (p : Phase) : phaseOk (.prgaXor m) p = true ↔ p = .keyed := by
  cases p <;> simp [phaseOk]

/-- Nothing is in flight and the KSA has ended: PRGA_XOR is accepted (R152). -/
structure AcceptsPrga (s : State) : Prop where
  idle : s.busy = false
  phase : s.phase = .keyed

theorem AcceptsPrga.admitted {s : State} (h : AcceptsPrga s) (m : Byte) : Admitted (.prgaXor m) s :=
  ⟨rfl, (phaseOk_prgaXor m s.phase).2 h.phase, nofun, nofun⟩

/-- Settles O26: acceptance and rejection by the checks of R200; the completion is the command's effect. -/
theorem prgaXorEmitsOneByte : Obligations.PrgaXorEmitsOneByte := by
  refine fun s m => ⟨encode_prgaXor m, decode_eq_ok_iff.2 (encode_prgaXor m), fun hb hp => ?_, fun hb => ?_,
    fun hb hp => ?_⟩
  · have hacc : AcceptsPrga s := ⟨hb, hp⟩
    have hc := complete_accept (.prgaXor m) s
    exact ⟨accept (.prgaXor m) s, exec_of_admitted hb (hacc.admitted m), rfl, hc,
      (congrArg (·.kscount.toNat) hc).trans (BitVec.toNat_add s.kscount 1)⟩
  · exact exec_of_rejection rfl (rejectionOf_busy _ hb)
  · have hphase : phaseOk (.prgaXor m) s.phase = false := Bool.eq_false_iff.2 (mt (phaseOk_prgaXor m s.phase).1 hp)
    exact exec_of_rejection rfl (rejectionOf_of_wrong_phase hb hphase)

theorem AcceptsPrga.perform_prgaXor {s : State} (h : AcceptsPrga s) (m : Byte) :
    perform (.prgaXor m) s = finish (prgaXorEffect m s) :=
  perform_of_admitted h.idle (h.admitted m)

/-- A completed PRGA_XOR leaves the engine accepting the next one (R33, R152). -/
theorem AcceptsPrga.after_prgaXor {s : State} (h : AcceptsPrga s) (m : Byte) : AcceptsPrga (perform (.prgaXor m) s) := by
  rw [h.perform_prgaXor]
  exact ⟨rfl, h.phase⟩

/-! ### One byte for each PRGA_XOR -/

theorem outputBytes_length (msg : List Byte) (s : State) : (outputBytes msg s).length = msg.length := by
  induction msg generalizing s with
  | nil => rfl
  | cons m msg ih => exact congrArg (· + 1) (ih _)

theorem keystreamBytes_length (msg : List Byte) (s : State) : (keystreamBytes msg s).length = msg.length := by
  induction msg generalizing s with
  | nil => rfl
  | cons m msg ih => exact congrArg (· + 1) (ih _)

/-- What one completed PRGA_XOR does to the counters and to S (R22, R150, R152). -/
theorem AcceptsPrga.counters_after_prgaXor {s : State} (h : AcceptsPrga s) (m : Byte) (hs : IsPermutation s.sbox) :
    (perform (.prgaXor m) s).i.toNat = (s.i.toNat + 1) % 256 ∧
      (perform (.prgaXor m) s).kscount.toNat = (s.kscount.toNat + 1) % 2 ^ 32 ∧
      IsPermutation (perform (.prgaXor m) s).sbox := by
  rw [h.perform_prgaXor]
  exact ⟨sumMod256_pair_toNat s.i 1#8, BitVec.toNat_add s.kscount 1, isPermutation_swapEntries hs _ _⟩

theorem AcceptsPrga.after_prgaXors {s : State} (h : AcceptsPrga s) (msg : List Byte) (hs : IsPermutation s.sbox) :
    (performAll (msg.map .prgaXor) s).i.toNat = (s.i.toNat + msg.length) % 256 ∧
      (performAll (msg.map .prgaXor) s).kscount.toNat = (s.kscount.toNat + msg.length) % 2 ^ 32 ∧
      AcceptsPrga (performAll (msg.map .prgaXor) s) ∧ IsPermutation (performAll (msg.map .prgaXor) s).sbox := by
  induction msg generalizing s with
  | nil => exact ⟨(Nat.mod_eq_of_lt s.i.isLt).symm, (Nat.mod_eq_of_lt s.kscount.isLt).symm, h, hs⟩
  | cons m msg ih =>
    obtain ⟨hi, hc, hperm⟩ := h.counters_after_prgaXor m hs
    obtain ⟨hi', hc', hacc, hperm'⟩ := ih (h.after_prgaXor m) hperm
    rw [List.map_cons, performAll, List.length_cons]
    exact ⟨by omega, by omega, hacc, hperm'⟩

/-- Settles O34, by induction over the message. -/
theorem oneByteForEachPrgaXor : Obligations.OneByteForEachPrgaXor := by
  intro s msg hb hp hs
  obtain ⟨hi, hc, ⟨hb', hp'⟩, hperm⟩ := AcceptsPrga.after_prgaXors ⟨hb, hp⟩ msg hs
  exact ⟨outputBytes_length msg s, keystreamBytes_length msg s, hi, hc, hp', hb', hperm⟩

/-! ### Keystream and outputs -/

/-- The outputs are the message XOR the keystream (R153). -/
theorem AcceptsPrga.outputBytes_eq {s : State} (h : AcceptsPrga s) (msg : List Byte) :
    outputBytes msg s = List.zipWith xorByte msg (keystreamBytes msg s) := by
  induction msg generalizing s with
  | nil => rfl
  | cons m msg ih =>
    have hdout : (perform (.prgaXor m) s).dout = xorByte m (perform (.prgaXor m) s).ks := by
      rw [h.perform_prgaXor]
      rfl
    rw [outputBytes, keystreamBytes, List.zipWith_cons_cons, hdout, ih (h.after_prgaXor m)]

/-- The keystream depends on S, I and J and on the length of the message alone (R150, R152). -/
theorem AcceptsPrga.keystreamBytes_congr {s t : State} {msg other : List Byte} (hs : AcceptsPrga s) (ht : AcceptsPrga t)
    (h : prgaRegs s = prgaRegs t) (hlen : other.length = msg.length) : keystreamBytes msg s = keystreamBytes other t := by
  induction msg generalizing s t other with
  | nil => rw [List.eq_nil_of_length_eq_zero hlen]; rfl
  | cons m msg ih =>
    cases other with
    | nil => cases hlen
    | cons n other =>
      obtain ⟨hks, hregs⟩ := prgaRound_congr h
      have hhead : (perform (.prgaXor m) s).ks = (perform (.prgaXor n) t).ks := by
        rw [hs.perform_prgaXor, ht.perform_prgaXor]
        exact hks
      have htail : prgaRegs (perform (.prgaXor m) s) = prgaRegs (perform (.prgaXor n) t) := by
        rw [hs.perform_prgaXor, ht.perform_prgaXor]
        exact hregs
      rw [keystreamBytes, keystreamBytes, hhead, ih (hs.after_prgaXor m) (ht.after_prgaXor n) htail (Nat.succ.inj hlen)]

/-! ### From INIT to the scheduled key -/

/-- The engine is idle in READY and its key buffer holds exactly `key` (R35, R120). -/
structure HoldsKey (key : List Byte) (s : State) : Prop where
  idle : s.busy = false
  pend : s.pend = none
  phase : s.phase = .ready
  settled : Settled s
  length : s.klen.toNat = key.length
  bytes : ∀ k : Byte, k.toNat < key.length → key[k.toNat]? = some (entry s.key k)

theorem holdsKey_init {s : State} (hb : s.busy = false) : HoldsKey [] (perform .init s) := by
  rw [perform_of_admitted hb (admitted_init s)]
  exact ⟨rfl, rfl, rfl, settled_initEffect s, rfl, nofun⟩

theorem HoldsKey.after_keyPush {key : List Byte} {s : State} (h : HoldsKey key s) (b : Byte) (hroom : key.length < 256) :
    HoldsKey (key ++ [b]) (perform (.keyPush b) s) := by
  have hlen := h.length
  have hadm : Admitted (.keyPush b) s := admitted_keyPush b h.phase (by bv_omega)
  obtain ⟨hlt, hsettled⟩ := settled_keyPushEffect h.settled hadm
  rw [perform_of_admitted h.idle hadm]
  refine ⟨rfl, rfl, h.phase, hsettled, ?_, fun k hk => ?_⟩
  · rw [finish_klen, effect_keyPush, keyPushEffect_klen, toNat_add_one (by omega), hlen, List.length_append]
    rfl
  · rw [List.length_append, List.length_singleton] at hk
    rw [finish_key, effect_keyPush, entry_keyPushEffect b hlt, hlen]
    split_ifs with hlast
    · rw [hlast, List.getElem?_concat_length]
    · rw [List.getElem?_append_left (by omega), h.bytes k (by omega)]

/-- INIT and the pushes of a key leave the engine holding it (R101, R120). -/
theorem holdsKey_pushes {s : State} {key : List Byte} (hb : s.busy = false) (hlen : key.length ≤ 256) :
    HoldsKey key (performAll ([.init] ++ key.map .keyPush) s) := by
  induction key using List.reverseRecOn with
  | nil => exact holdsKey_init hb
  | append_singleton key b ih =>
    rw [List.length_append, List.length_singleton] at hlen
    rw [List.map_append, ← List.append_assoc, performAll_append]
    exact (ih (by omega)).after_keyPush b (by omega)

/-- A held key has no round run yet (R35). -/
theorem HoldsKey.r_eq_zero {key : List Byte} {s : State} (h : HoldsKey key s) : s.r = 0 := by
  obtain ⟨-, -, hf⟩ := h.settled
  obtain ⟨hr, -⟩ := (phaseFacts_ready h.phase).1 hf
  exact hr

theorem HoldsKey.acceptsKsa {key : List Byte} {s : State} (h : HoldsKey key s) (hkey : 1 ≤ key.length) : AcceptsKsa s :=
  ⟨h.idle, .inl h.phase, h.length ▸ hkey, by simp [h.r_eq_zero]⟩

/-- The two forms of the KSA reach the same state (R134). -/
theorem HoldsKey.performAll_ksa {key : List Byte} {s : State} {ksa : List Instr} (h : HoldsKey key s)
    (hkey : 1 ≤ key.length) (hksa : ksa = [.ksaRun] ∨ ksa = List.replicate 256 .ksaStep) :
    performAll ksa s = perform .ksaRun s := by
  rcases hksa with rfl | rfl
  · rfl
  · obtain ⟨hacc, hlast, hrun⟩ := (h.acceptsKsa hkey).after_ksaSteps (n := 255) (by simp [h.r_eq_zero])
    rw [List.replicate_succ', performAll_append]
    exact (hacc.perform_last (hlast.trans (by simp [h.r_eq_zero]))).trans hrun

/-- ERR aside, which INIT keeps, an engine that holds a key meets the invariant. -/
theorem HoldsKey.machineInv_clearErr {key : List Byte} {s : State} (h : HoldsKey key s) : MachineInv (clearErr s) :=
  machineInv_of_idle h.idle h.pend h.settled (Nat.zero_le _)

/-- KSA_RUN does not read ERR (R133). -/
theorem AcceptsKsa.sbox_ksaRun_clearErr {s : State} (h : AcceptsKsa s) :
    (perform .ksaRun (clearErr s)).sbox = (perform .ksaRun s).sbox := by
  have h' : AcceptsKsa (clearErr s) := ⟨h.idle, h.phase, h.key, h.round⟩
  have hrun : ksaRunEffect (clearErr s) = withUntouched (ksaRunEffect s) (clearErr s) :=
    effect_withUntouched .ksaRun s (clearErr s)
  rw [h.perform_ksaRun, h'.perform_ksaRun, hrun]
  rfl

/-- The scheduled table depends on the held key alone (R135). -/
theorem HoldsKey.sbox_ksaRun_eq {key : List Byte} {s t : State} (hs : HoldsKey key s) (ht : HoldsKey key t)
    (hkey : 1 ≤ key.length) : (perform .ksaRun s).sbox = (perform .ksaRun t).sbox := by
  have hklen : t.klen = s.klen := BitVec.eq_of_toNat_eq (ht.length.trans hs.length.symm)
  have hbytes : ∀ k : Byte, k.toNat < s.klen.toNat → entry s.key k = entry t.key k := by
    intro k hk
    rw [hs.length] at hk
    exact Option.some.inj ((hs.bytes k hk).symm.trans (ht.bytes k hk))
  have htable := (scheduledTableDependsOnlyOnTheKey.2 (clearErr s) (clearErr t) 0 0 hs.machineInv_clearErr
    ht.machineInv_clearErr hs.idle ht.idle hs.phase ht.phase (hs.length ▸ hkey) hklen hbytes (by omega) (by omega)).1
  rw [← (hs.acceptsKsa hkey).sbox_ksaRun_clearErr, ← (ht.acceptsKsa hkey).sbox_ksaRun_clearErr]
  exact htable

/-- KSA_RUN ends in KEYED with I = J = 0 (R131, R133). -/
theorem AcceptsKsa.after_ksaRun {s : State} (h : AcceptsKsa s) :
    AcceptsPrga (perform .ksaRun s) ∧ prgaRegs (perform .ksaRun s) = ((perform .ksaRun s).sbox, 0, 0) := by
  rw [h.perform_ksaRun, ksaRunEffect_finishes h.round]
  exact ⟨⟨rfl, rfl⟩, rfl⟩

/-- The whole sequence up to the first PRGA_XOR leaves KSA_RUN's result on an engine that holds the key (R153). -/
theorem performAll_schedule {s : State} {key : List Byte} {ksa : List Instr} (hb : s.busy = false) (hkey : 1 ≤ key.length)
    (hlen : key.length ≤ 256) (hksa : ksa = [.ksaRun] ∨ ksa = List.replicate 256 .ksaStep) :
    ∃ u, HoldsKey key u ∧ performAll ([.init] ++ key.map .keyPush ++ ksa) s = perform .ksaRun u := by
  have hu := holdsKey_pushes hb hlen
  exact ⟨_, hu, by rw [performAll_append, hu.performAll_ksa hkey hksa]⟩

/-- Settles O33: both sides schedule the same S with I = J = 0, so they emit one keystream, and XOR with it twice is the
message. -/
theorem decryptingTheOutputsGivesTheMessage : Obligations.DecryptingTheOutputsGivesTheMessage := by
  intro s t key msg other ksaS ksaT hbs hbt hkey hlen hksaS hksaT hother
  obtain ⟨u, hu, hs⟩ := performAll_schedule hbs hkey hlen hksaS
  obtain ⟨v, hv, ht⟩ := performAll_schedule hbt hkey hlen hksaT
  obtain ⟨hus, hur⟩ := (hu.acceptsKsa hkey).after_ksaRun
  obtain ⟨hvs, hvr⟩ := (hv.acceptsKsa hkey).after_ksaRun
  have hregs : prgaRegs (perform .ksaRun u) = prgaRegs (perform .ksaRun v) := by
    rw [hur, hvr, hu.sbox_ksaRun_eq hv hkey]
  rw [hs, ht]
  refine ⟨hus.keystreamBytes_congr hvs hregs hother, hus.outputBytes_eq msg, ?_⟩
  have hks := hus.keystreamBytes_congr hvs hregs (outputBytes_length msg (perform .ksaRun u))
  rw [hvs.outputBytes_eq, ← hks, hus.outputBytes_eq]
  exact zipWith_xorByte_twice (keystreamBytes_length msg _)

end Sys2Proof.Machine
end

section
/-! PROOFS. Exceptions (60_exceptions.md): the checks on a command write and their order (R200, R204), the codes they give ERR
(R201, R202), and that a rejection writes ERR alone and nothing faults (R203, R205, R207). -/

namespace Sys2Proof.Machine

/-! ### Every edge and every command write answers -/

/-- Settles O6. -/
theorem everyEdgeAndEveryCommandAnswers : Obligations.EveryEdgeAndEveryCommandAnswers :=
  ⟨step_answers, exec_answers⟩

/-! ### The order of the checks -/

/-- The checks of R200 written out, each with the code that its failure leaves in ERR (R201, R204). -/
theorem submit_eq_checks (c : Instr) (s : State) : submit c s =
    if s.busy = true then { s with err := 2 }
    else if phaseOk c s.phase = false then { s with err := 3 }
    else if needsKey c = true ∧ s.klen = 0#9 then { s with err := 4 }
    else if appendsKey c = true ∧ s.klen = 256#9 then { s with err := 5 }
    else { s with busy := true, pend := some c, left := latency c s.r } := by
  unfold submit rejectionOf
  split_ifs <;> rfl

/-- Settles O9: the word is illegal, NOP, ERR_CLEAR, or a command that goes through the checks. -/
theorem commandWriteFollowsTheOrderOfChecks : Obligations.CommandWriteFollowsTheOrderOfChecks := by
  intro w s
  cases hd : decode w with
  | error x => exact cmdWrite_of_illegal hd s
  | ok c =>
    rw [cmdWrite_of_decode_ok hd]
    cases c
    case nop => rfl
    case errClear => rfl
    all_goals exact congrArg Host.Outcome.next (submit_eq_checks _ s)

/-! ### The phases that admit a command -/

/-- R202's table, by its refusals. -/
theorem phaseOk_eq_false_iff (c : Instr) (p : Phase) : phaseOk c p = false ↔
    ((∃ b, c = .keyPush b) ∧ p ≠ .ready) ∨ ((c = .ksaStep ∨ c = .ksaRun) ∧ p = .keyed) ∨
      ((∃ m, c = .prgaXor m) ∧ p ≠ .keyed) := by
  cases c <;> cases p <;> simp [phaseOk]

theorem setsBusy_of_wrong_phase {c : Instr} {p : Phase} (h : phaseOk c p = false) : setsBusy c = true := by
  rcases (phaseOk_eq_false_iff c p).1 h with ⟨⟨b, rfl⟩, -⟩ | ⟨rfl | rfl, -⟩ | ⟨⟨m, rfl⟩, -⟩ <;> rfl

/-- With nothing in flight the verdict STATE is the phase's (R200). -/
theorem rejectionOf_eq_state_iff {c : Instr} {s : State} (hb : s.busy = false) :
    rejectionOf c s = some .state ↔ phaseOk c s.phase = false := by
  refine ⟨fun h => ?_, rejectionOf_of_wrong_phase hb⟩
  unfold rejectionOf at h
  split_ifs at h with hbusy hphase <;> cases h
  exact hphase

/-- The verdict KEY_EMPTY is for an admitted phase and an empty key (R200). -/
theorem of_rejectionOf_keyEmpty {c : Instr} {s : State} (h : rejectionOf c s = some .keyEmpty) :
    phaseOk c s.phase = true ∧ needsKey c = true ∧ s.klen = 0 := by
  unfold rejectionOf at h
  split_ifs at h with hbusy hphase hkey <;> cases h
  exact ⟨Bool.of_not_eq_false hphase, hkey⟩

theorem errValue_injective : Function.Injective errValue := by
  intro a b h
  cases a <;> cases b <;> simp_all [errValue]

/-- With ERR clear before, a command leaves a code in ERR exactly when that code is the verdict on it (R201, R203). -/
theorem exec_err_eq_iff {c : Instr} {s t : State} {code : ErrCode} (he : s.err = 0) (hcode : code ≠ .none)
    (h : exec c s = .next t) : t.err = errValue code ↔ setsBusy c = true ∧ rejectionOf c s = some code := by
  have hne : (0 : BitVec 4) ≠ errValue code := fun e => hcode (errValue_injective e.symm)
  rcases exec_cases h with ⟨rfl, rfl⟩ | ⟨rfl, rfl⟩ | ⟨hc, verdict, hr, rfl⟩ | ⟨-, hr, rfl⟩
  · exact iff_of_false (he ▸ hne) nofun
  · exact iff_of_false hne nofun
  · simp [hc, hr, errValue_injective.eq_iff]
  · exact iff_of_false (he ▸ hne) (by simp [hr])

/-- Under the invariant only phase READY has an empty key for KSA_STEP or KSA_RUN to meet (R35, R202). -/
theorem Settled.ready_of_rejectionOf_keyEmpty {c : Instr} {s : State} (h : Settled s)
    (hr : rejectionOf c s = some .keyEmpty) : s.phase = .ready ∧ s.klen = 0 := by
  obtain ⟨hphase, hneeds, hk⟩ := of_rejectionOf_keyEmpty hr
  obtain ⟨-, -, hf⟩ := h
  refine ⟨((phaseOk_iff_of_needsKey hneeds _).1 hphase).resolve_right fun hp => ?_, hk⟩
  obtain ⟨-, -, hkey, -⟩ := (phaseFacts_ksa hp).1 hf
  rw [hk] at hkey
  exact absurd hkey (by decide)

/-- Settles O10: ERR = 3 and ERR = 4 are the verdicts STATE and KEY_EMPTY. -/
theorem phaseAdmissionTable : Obligations.PhaseAdmissionTable := by
  refine ⟨fun s t c hb he h => ⟨?_, fun ⟨_, hsettled, _⟩ h4 => ?_⟩, fun _ => ⟨rfl, rfl⟩⟩
  · rw [← phaseOk_eq_false_iff, ← rejectionOf_eq_state_iff hb]
    refine (exec_err_eq_iff he (code := .state) nofun h).trans (and_iff_right_of_imp fun hr => ?_)
    exact setsBusy_of_wrong_phase ((rejectionOf_eq_state_iff hb).1 hr)
  · obtain ⟨-, hr⟩ := (exec_err_eq_iff he (code := .keyEmpty) nofun h).1 h4
    exact (hsettled hb).ready_of_rejectionOf_keyEmpty hr

/-! ### A rejection writes ERR alone -/

/-- A completion neither reads nor writes ERR (R203). -/
theorem complete_withErr (s : State) (e : BitVec 4) : complete { s with err := e } = { complete s with err := e } :=
  (complete_withUntouched (s := s) (o := { s with err := e }) rfl).trans (by simp [complete])

/-- Nor does the engine at any edge. -/
theorem engineTick_withErr (s : State) (e : BitVec 4) :
    engineTick { s with err := e } = { engineTick s with err := e } := by
  unfold engineTick
  rw [complete_withErr]
  split <;> rfl

/-- Settles O11. -/
theorem rejectionWritesOnlyErr : Obligations.RejectionWritesOnlyErr := by
  refine ⟨fun w s x hd => cmdWrite_of_illegal hd s, fun w s c code hd hc hr => ?_,
    fun s e => ⟨complete_withErr s e, engineTick_withErr s e⟩⟩
  rw [cmdWrite_of_decode_ok hd]
  exact exec_of_rejection hc hr

/-! ### The frame of a command write -/

theorem ne_of_setsBusy {c : Instr} (hc : setsBusy c = true) : c ≠ .nop ∧ c ≠ .errClear := by
  constructor <;> rintro rfl <;> cases hc

/-- Settles O42: what the four outcomes of a command write leave unchanged. -/
theorem commandWriteFrame : Obligations.CommandWriteFrame := by
  intro c s t h
  rcases exec_cases h with ⟨rfl, rfl⟩ | ⟨rfl, rfl⟩ | ⟨hc, code, -, rfl⟩ | ⟨hc, hr, rfl⟩
  · exact ⟨rfl, rfl, rfl, rfl, fun _ => rfl, nofun, .inl rfl⟩
  · exact ⟨rfl, rfl, rfl, rfl, nofun, fun _ => rfl, .inl rfl⟩
  · exact ⟨rfl, rfl, rfl, rfl, fun hnop => absurd hnop (ne_of_setsBusy hc).1, fun _ => rfl, .inl rfl⟩
  · obtain ⟨hnop, hclear⟩ := ne_of_setsBusy hc
    obtain ⟨hb, -⟩ := (rejectionOf_eq_none_iff c s hc).1 hr
    exact ⟨rfl, rfl, rfl, rfl, fun e => absurd e hnop, fun e => absurd e hclear, .inr ⟨rfl, hb, rfl, rfl⟩⟩

end Sys2Proof.Machine
end

section
/-! PROOFS. Reset (70_reset_and_hazards.md): what an edge with `rst` = 1 leaves (R230, R232), and that the implicit INIT
reaches the reset state (R231). -/

namespace Sys2Proof.Machine

/-! ### The reset edge -/

/-- An edge with `rst` = 1 ignores the access (R230). -/
theorem step_of_rst {s : State} (h : (nextPins s).rst = true) : step s = .next (resetEdge (nextCycle (dropPins s))) :=
  if_pos h

/-- What a reset edge leaves depends on the coming pins and the draws, and `rdata`, alone. -/
theorem resetEdge_congr {s t : State} (hr : s.rdata = t.rdata) (hi : s.inputs = t.inputs) (hd : s.draws = t.draws) :
    resetEdge s = resetEdge t := by
  simp only [resetEdge, hr, hi, hd]

/-- Settles O36: a reset edge replaces every field that the two states may differ in. -/
theorem resetAbandonsEverything : Obligations.ResetAbandonsEverything := by
  intro s t p q rest hp hq hd
  have hs := step_of_rst (s := { s with inputs := p :: rest }) hp
  have ht := step_of_rst (s := { t with inputs := q :: rest }) hq
  exact ⟨_, hs, ht.trans (congrArg _ (resetEdge_congr (by simp [hd]) rfl (by simp [hd]))), rfl, rfl, rfl, rfl⟩

/-! ### The implicit INIT -/

/-- What an idle host keeps: no pins are coming, ERR is 0, and nothing is counted down unless a command is in flight. -/
structure Unattended (s : State) : Prop where
  inputs : s.inputs = []
  err : s.err = 0
  left : s.busy = false → s.left = 0

theorem nextPins_nil {s : State} (h : s.inputs = []) : nextPins s = Pins.idle := by
  simp [nextPins, h]

theorem Unattended.of_step {s t : State} (hs : Unattended s) (h : step s = .next t) : Unattended t := by
  have hpins := nextPins_nil hs.inputs
  have hrst : (nextPins s).rst = false := by rw [hpins]; rfl
  have hreq : (nextPins s).req ≠ true := by rw [hpins]; decide
  have htail : s.inputs.tail = [] := by rw [hs.inputs]; rfl
  have herr : t.err = 0 := by
    rcases step_err h hrst with he | ⟨hwrite, -⟩
    · exact he.trans hs.err
    · exact absurd hwrite hreq
  obtain ⟨v, e, x, hm, rfl⟩ := step_move h hrst
  cases hm with
  | stays => exact ⟨htail, herr, hs.left⟩
  | accepts hwrite => exact absurd hwrite hreq
  | waits hb => exact ⟨htail, herr, fun hidle => absurd (hb.symm.trans hidle) (by decide)⟩
  | completes => exact ⟨by simpa [afterEdge] using htail, herr, fun _ => rfl⟩

theorem unattended_resetEdge {s : State} (h : s.inputs = []) : Unattended (resetEdge s) :=
  ⟨h, rfl, nofun⟩

/-- The implicit INIT gives every engine register but K its reset value (R37, R101, R231). -/
theorem engineRegs_complete_resetEdge (s : State) :
    engineRegs (complete (resetEdge s)) = engineRegs { State.reset with key := (resetEdge s).key } := rfl

/-- An unattended idle state with the reset registers is the reset state, but for K, `rdata` and the draws (R37). -/
theorem Unattended.eq_reset {t : State} {K : Table} (h : Unattended t) (hb : t.busy = false) (hp : t.pend = none)
    (hregs : engineRegs t = engineRegs { State.reset with key := K }) :
    { t with key := State.reset.key, rdata := State.reset.rdata, draws := State.reset.draws } = State.reset := by
  obtain ⟨hi, he, hl⟩ := h
  simp only [engineRegs, Prod.mk.injEq] at hregs
  obtain ⟨hsbox, -, hklen, hr, hI, hj, hks, hdout, hcount, hphase⟩ := hregs
  simp only [hsbox, hklen, hr, hI, hj, hks, hdout, hcount, hphase, hb, hp, he, hi, hl hb]
  rfl

/-- Settles O37: the INIT in flight after the reset edge completes on time, and an idle host keeps the rest. -/
theorem resetThenInitReachesTheResetState : Obligations.ResetThenInitReachesTheResetState := by
  intro s hs
  obtain ⟨n, hn⟩ : ∃ n, (Config.latResetInit : ℕ) = n + 1 := Nat.exists_eq_succ_of_ne_zero Config.latResetInit.ne_zero
  obtain ⟨-, t, ht, hb, hp, hregs⟩ := acceptedCommandCompletesWhenItsLatencyEnds (resetEdge s) n rfl hn (by simp [hs])
  have hidle : Unattended t := runEdges_induction (fun _ _ => Unattended.of_step) (unattended_resetEdge hs) ht
  rw [hn]
  exact ⟨t, ht, hidle.eq_reset hb hp (hregs.trans (engineRegs_complete_resetEdge s))⟩

end Sys2Proof.Machine
end

section
/-! PROOFS. The reference FSM (70_reset_and_hazards.md R244): each command's micro-steps refine its one-step completion, in
the reference number of cycles (R242, R245), with the key index counter kept at R mod KLEN (R241). -/

namespace Sys2Proof.Machine

/-! ### Cycles with BUSY = 1 -/

/-- `n` cycles lead from `m` to `m'`, with BUSY = 1 before each of them. -/
structure RunsBusy (n : Nat) (m m' : RefFsm) : Prop where
  reaches : refCycles n m = m'
  busy : ∀ k < n, (refCycles k m).st.busy = true

theorem RunsBusy.none (m : RefFsm) : RunsBusy 0 m m := ⟨rfl, nofun⟩

theorem RunsBusy.one {m m' : RefFsm} (hb : m.st.busy = true) (h : refCycle m = m') : RunsBusy 1 m m' := by
  refine ⟨h, fun k hk => ?_⟩
  obtain rfl : k = 0 := by omega
  exact hb

theorem refCycles_add (a b : Nat) (m : RefFsm) : refCycles (a + b) m = refCycles b (refCycles a m) := by
  induction a generalizing m with
  | zero => rw [Nat.zero_add]; rfl
  | succ a ih => rw [Nat.succ_add]; exact ih (refCycle m)

theorem RunsBusy.append {a b : Nat} {m m' m'' : RefFsm} (h : RunsBusy a m m') (h' : RunsBusy b m' m'') :
    RunsBusy (a + b) m m'' := by
  obtain ⟨rfl, hbusy⟩ := h
  obtain ⟨rfl, hbusy'⟩ := h'
  refine ⟨refCycles_add a b m, fun k hk => ?_⟩
  rcases Nat.lt_or_ge k a with hlt | hge
  · exact hbusy k hlt
  · have hcut := refCycles_add a (k - a) m
    rw [Nat.add_sub_of_le hge] at hcut
    rw [hcut]
    exact hbusy' (k - a) (by omega)

/-- `n` cycles, busy until then, lead from `m` to IDLE with the registers `s` and the key index counter at R mod KLEN if
`counts`. -/
def EndsAs (n : Nat) (counts : Prop) (m : RefFsm) (s : State) : Prop :=
  ∃ m', RunsBusy n m m' ∧ m'.micro = .idle ∧ m'.st = s ∧ (counts → m'.kidx.toNat = s.r.toNat % s.klen.toNat)

theorem EndsAs.mono {n : Nat} {p q : Prop} {m : RefFsm} {s : State} (h : EndsAs n p m s) (hqp : q → p) :
    EndsAs n q m s := by
  obtain ⟨m', hrun, hidle, hst, hk⟩ := h
  exact ⟨m', hrun, hidle, hst, hk ∘ hqp⟩

/-- A completion is the pending command's effect, and the end of BUSY (R31). -/
theorem complete_eq_finish {s : State} {c : Instr} (h : s.pend = some c) : complete s = finish (effect c s) :=
  complete_of_pend h

/-! ### INIT -/

/-- The table after the first `n` cycles of INIT_FILL: the entries below `n` are their own index. -/
def filled (t : Table) : Nat → Table
  | 0 => t
  | n + 1 => setEntry (filled t n) (BitVec.ofNat 8 n) (BitVec.ofNat 8 n)

theorem entry_filled (t : Table) {n : Nat} (hn : n ≤ 256) (k : Byte) :
    entry (filled t n) k = if k.toNat < n then k else entry t k := by
  induction n with
  | zero => rfl
  | succ n ih =>
    have hk : k = BitVec.ofNat 8 n ↔ k.toNat = n := by bv_omega
    simp only [filled, entry_setEntry, ih (by omega), hk]
    rcases Nat.lt_trichotomy k.toNat n with hlt | heq | hgt
    · rw [if_neg hlt.ne, if_pos hlt, if_pos (hlt.trans (Nat.lt_succ_self n))]
    · rw [if_pos heq, if_pos (by omega), hk.2 heq]
    · rw [if_neg hgt.ne', if_neg (by omega), if_neg (by omega)]

theorem filled_eq_identityTable (t : Table) {n : Nat} (hn : n = 256) : filled t n = identityTable :=
  table_ext fun k => by rw [entry_filled t hn.le, if_pos (hn ▸ k.isLt), entry_identityTable]

/-- The FSM in INIT_FILL with `n` entries filled. -/
def filling (m : RefFsm) (n : Nat) : RefFsm :=
  { m with micro := .initFill, cnt := BitVec.ofNat 8 n, st := { m.st with sbox := filled m.st.sbox n } }

theorem refCycle_filling (m : RefFsm) {n : Nat} (hn : n < 255) : refCycle (filling m n) = filling m (n + 1) := by
  have hcnt : BitVec.ofNat 8 n ≠ 255#8 := by bv_omega
  have hnext : BitVec.ofNat 8 n + 1 = BitVec.ofNat 8 (n + 1) := by bv_omega
  rw [filling, filling, ← hnext]
  exact if_neg hcnt

theorem refCycle_filling_last (m : RefFsm) {n : Nat} (hn : n = 255) : refCycle (filling m n) =
    { m with micro := .idle, cnt := BitVec.ofNat 8 n + 1, kidx := 0, st := finish (initEffect m.st) } := by
  have hcnt : BitVec.ofNat 8 n = 255#8 := by rw [hn]
  have hfull : filled m.st.sbox (n + 1) = identityTable := filled_eq_identityTable _ (by omega)
  rw [initEffect, ← hfull]
  exact if_pos hcnt

theorem runsBusy_filling {m : RefFsm} (hb : m.st.busy = true) {n : Nat} (hn : n ≤ 255) :
    RunsBusy n (refStart .init m) (filling m n) := by
  induction n with
  | zero => exact .none _
  | succ n ih => exact (ih (by omega)).append (.one hb (refCycle_filling m hn))

/-- INIT_FILL writes the 256 entries one a cycle, and the rest in the last one. -/
theorem endsAs_init {m : RefFsm} (hb : m.st.busy = true) (hp : m.st.pend = some .init) :
    EndsAs 256 True (refStart .init m) (complete m.st) := by
  obtain ⟨n, hn⟩ : ∃ n, n = 255 := ⟨_, rfl⟩
  have hrun := (runsBusy_filling hb hn.le).append (.one hb (refCycle_filling_last m hn))
  rw [complete_eq_finish hp, show 256 = n + 1 by omega]
  exact ⟨_, hrun, rfl, rfl, fun _ => rfl⟩

/-! ### KEY_PUSH -/

theorem endsAs_keyPush {m : RefFsm} {b : Byte} (hb : m.st.busy = true) (hp : m.st.pend = some (.keyPush b)) :
    EndsAs 1 False (refStart (.keyPush b) m) (complete m.st) := by
  have harg : pendArg m.st = b := by rw [pendArg, hp]
  refine ⟨_, .one hb rfl, rfl, ?_, False.elim⟩
  rw [complete_eq_finish hp, ← harg]
  rfl

/-! ### KSA_STEP and KSA_RUN -/

/-- What the cycles of a KSA round rely on: there is a key, rounds are left, and the key index counter is R mod KLEN. -/
structure KsaReady (m : RefFsm) : Prop where
  busy : m.st.busy = true
  round : m.st.r.toNat ≤ 255
  key : 1 ≤ m.st.klen.toNat
  keyFits : m.st.klen.toNat ≤ 256
  kidx : m.kidx.toNat = m.st.r.toNat % m.st.klen.toNat

/-- Selecting the first micro-state of the round changes none of it (R244). -/
theorem KsaReady.selected {m : RefFsm} (h : KsaReady m) : KsaReady { m with micro := .ksaA } :=
  ⟨h.busy, h.round, h.key, h.keyFits, h.kidx⟩

/-- The key index counter is the key index of the round (R130, R241). -/
theorem KsaReady.kidx_eq {m : RefFsm} (h : KsaReady m) : m.kidx = keyIndex (roundIndex m.st.r) m.st.klen := by
  apply BitVec.eq_of_toNat_eq
  rw [(keyIndex_toNat _ h.key).1, roundIndex_toNat h.round, h.kidx]

/-- The key index counter's advance is the advance of R mod KLEN (R241). -/
theorem kidxNext_toNat {k : Byte} {klen : BitVec 9} {r : Nat} (hlen : 1 ≤ klen.toNat) (hfits : klen.toNat ≤ 256)
    (hk : k.toNat = r % klen.toNat) : (kidxNext k klen).toNat = (r + 1) % klen.toNat := by
  have hlt : k.toNat < klen.toNat := hk ▸ Nat.mod_lt r hlen
  rw [Nat.add_mod_eq_add_mod_right 1 (Nat.mod_mod r klen.toNat).symm, ← hk, kidxNext]
  split_ifs with hwrap
  · rw [hwrap, Nat.mod_self]
    rfl
  · rw [Nat.mod_eq_of_lt (by omega), BitVec.toNat_add]
    exact Nat.mod_eq_of_lt (by simp; omega)

/-- The FSM after KSA_A and KSA_B: the accumulator and one half of the swap are done. -/
def halfSwapped (m : RefFsm) : RefFsm :=
  { m with
    micro := .ksaC
    a := entry m.st.sbox (roundIndex m.st.r)
    jn := ksaNextJ m.st
    b := entry m.st.sbox (ksaNextJ m.st)
    st := { m.st with
      j := ksaNextJ m.st
      sbox := setEntry m.st.sbox (roundIndex m.st.r) (entry m.st.sbox (ksaNextJ m.st)) } }

theorem KsaReady.runsBusy_halfSwapped {m : RefFsm} (h : KsaReady m) (hm : m.micro = .ksaA) :
    RunsBusy 2 m (halfSwapped m) := by
  have hA : refCycle m = { m with
      micro := .ksaB, a := entry m.st.sbox (roundIndex m.st.r), jn := ksaNextJ m.st, st := { m.st with j := ksaNextJ m.st } } := by
    rw [refCycle, hm, h.kidx_eq]
    rfl
  exact (RunsBusy.one h.busy hA).append (.one h.busy rfl)

/-- KSA_C completes the swap and, in the last round, the KSA (R131). -/
theorem refCycle_halfSwapped_last {m : RefFsm} (hr : m.st.r.toNat = 255) : refCycle (halfSwapped m) =
    { halfSwapped m with st := finish (ksaRound m.st), kidx := kidxNext m.kidx m.st.klen, micro := .idle } := by
  have h256 := (add_one_eq_256_iff m.st.r).2 hr
  rw [ksaRound_eq_of_last hr, ← h256]
  exact if_pos h256

/-- The FSM at the start of KSA_RUN's next round. -/
def nextRound (m : RefFsm) : RefFsm :=
  { halfSwapped m with st := ksaRound m.st, kidx := kidxNext m.kidx m.st.klen, micro := .ksaA }

/-- KSA_RUN goes on with the next round. -/
theorem refCycle_halfSwapped_run {m : RefFsm} (hr : m.st.r.toNat < 255) (hp : m.st.pend = some .ksaRun) :
    refCycle (halfSwapped m) = nextRound m := by
  rw [nextRound, ksaRound_eq_of_lt hr]
  exact (if_neg (mt (add_one_eq_256_iff m.st.r).1 (Nat.ne_of_lt hr))).trans (if_pos hp)

/-- KSA_STEP ends after its one round, in phase KSA. -/
theorem refCycle_halfSwapped_step {m : RefFsm} (hr : m.st.r.toNat < 255) (hp : m.st.pend = some .ksaStep) :
    refCycle (halfSwapped m) =
      { halfSwapped m with
        st := finish (withPhase .ksa (ksaRound m.st)), kidx := kidxNext m.kidx m.st.klen, micro := .idle } := by
  have hrun : m.st.pend ≠ some .ksaRun := by simp [hp]
  rw [ksaRound_eq_of_lt hr]
  exact (if_neg (mt (add_one_eq_256_iff m.st.r).1 (Nat.ne_of_lt hr))).trans (if_neg hrun)

theorem KsaReady.kidxNext_eq {m : RefFsm} (h : KsaReady m) :
    (kidxNext m.kidx m.st.klen).toNat = (ksaRound m.st).r.toNat % (ksaRound m.st).klen.toNat := by
  rw [ksaRound_r_toNat h.round, ksaRound_klen]
  exact kidxNext_toNat h.key h.keyFits h.kidx

theorem nextRound_busy (m : RefFsm) : (nextRound m).st.busy = m.st.busy := congrArg (·.1) (ksaRound_untouched m.st)

theorem nextRound_pend (m : RefFsm) : (nextRound m).st.pend = m.st.pend := congrArg (·.2.1) (ksaRound_untouched m.st)

theorem KsaReady.next {m : RefFsm} (h : KsaReady m) (hr : m.st.r.toNat < 255) : KsaReady (nextRound m) where
  busy := (nextRound_busy m).trans h.busy
  round := (ksaRound_r_toNat h.round).trans_le hr
  key := (ksaRound_klen m.st).symm ▸ h.key
  keyFits := (ksaRound_klen m.st).symm ▸ h.keyFits
  kidx := h.kidxNext_eq

/-- The last round of either command. -/
theorem KsaReady.endsAs_last {m : RefFsm} (h : KsaReady m) (hm : m.micro = .ksaA) (hr : m.st.r.toNat = 255) :
    EndsAs 3 True m (finish (ksaRound m.st)) :=
  ⟨_, (h.runsBusy_halfSwapped hm).append (.one h.busy (refCycle_halfSwapped_last hr)), rfl, rfl, fun _ => h.kidxNext_eq⟩

/-- KSA_STEP's one round. -/
theorem KsaReady.endsAs_ksaStep {m : RefFsm} (h : KsaReady m) (hm : m.micro = .ksaA) (hp : m.st.pend = some .ksaStep) :
    EndsAs 3 True m (finish (ksaStepEffect m.st)) := by
  rw [ksaStepEffect_eq h.round]
  rcases Nat.lt_or_eq_of_le h.round with hlt | hlast
  · rw [if_neg (Nat.ne_of_lt hlt)]
    exact ⟨_, (h.runsBusy_halfSwapped hm).append (.one h.busy (refCycle_halfSwapped_step hlt hp)), rfl, rfl,
      fun _ => h.kidxNext_eq⟩
  · rw [if_pos hlast, ← ksaRound_last_phase hlast]
    exact h.endsAs_last hm hlast

/-- KSA_RUN's rounds, by the rounds left: each but the last leads to the next one. -/
theorem KsaReady.endsAs_ksaRun {n : Nat} {m : RefFsm} (h : KsaReady m) (hm : m.micro = .ksaA)
    (hp : m.st.pend = some .ksaRun) (hn : m.st.r.toNat + n = 255) :
    EndsAs (3 * (n + 1)) True m (finish (ksaRunEffect m.st)) := by
  induction n generalizing m with
  | zero =>
    have hlast : m.st.r.toNat = 255 := hn
    rw [show ksaRunEffect m.st = ksaRound m.st by rw [ksaRunEffect, hlast]; rfl]
    exact h.endsAs_last hm hlast
  | succ n ih =>
    have hr : (ksaRound m.st).r.toNat = m.st.r.toNat + 1 := ksaRound_r_toNat h.round
    have hround := (h.runsBusy_halfSwapped hm).append (.one h.busy (refCycle_halfSwapped_run (by omega) hp))
    obtain ⟨m', hrest, hidle, hst, hk⟩ :=
      ih (h.next (by omega)) rfl ((nextRound_pend m).trans hp) (show (ksaRound m.st).r.toNat + n = 255 by omega)
    rw [← ksaRunEffect_ksaRound h.round, show 3 * (n + 1 + 1) = 2 + 1 + 3 * (n + 1) by omega]
    exact ⟨m', hround.append hrest, hidle, hst, hk⟩

/-! ### PRGA_XOR -/

/-- After the swap the two entries are each other's old values, so the sum that selects the keystream byte is that of the
old entries (R150, R240). -/
theorem keystreamByte_prgaRound (s : State) : keystreamByte (prgaRound s) =
    entry (prgaRound s).sbox (sumMod256 [entry s.sbox (prgaRound s).i, entry s.sbox (prgaRound s).j]) := by
  have hi : entry (prgaRound s).sbox (prgaRound s).i = entry s.sbox (prgaRound s).j := entry_swapEntries_left _ _ _
  have hj : entry (prgaRound s).sbox (prgaRound s).j = entry s.sbox (prgaRound s).i := entry_swapEntries_right _ _ _
  rw [keystreamByte, hi, hj, sumMod256_pair, sumMod256_pair, BitVec.add_comm]

theorem endsAs_prgaXor {m : RefFsm} {b : Byte} (hb : m.st.busy = true) (hp : m.st.pend = some (.prgaXor b)) :
    EndsAs 4 False (refStart (.prgaXor b) m) (complete m.st) := by
  have harg : pendArg m.st = b := by rw [pendArg, hp]
  have hA : RunsBusy 1 (refStart (.prgaXor b) m) _ := .one hb rfl
  refine ⟨_, ((hA.append (.one hb rfl)).append (.one hb rfl)).append (.one hb rfl), rfl, ?_, False.elim⟩
  rw [complete_eq_finish hp, effect_prgaXor, prgaXorEffect, keystreamByte_prgaRound, ← harg]
  rfl

/-! ### Every command -/

/-- Each command that sets BUSY ends as its one-step completion (R242), with the key index counter kept where it counts. -/
theorem endsAs_complete {m : RefFsm} {c : Instr} (hb : m.st.busy = true) (hp : m.st.pend = some c)
    (hc : setsBusy c = true) (hready : needsKey c = true → KsaReady m) :
    EndsAs (refLatency c m.st.r) (needsKey c = true ∨ c = .init) (refStart c m) (complete m.st) := by
  cases c with
  | nop => cases hc
  | errClear => cases hc
  | init => exact (endsAs_init hb hp).mono fun _ => trivial
  | keyPush b => exact (endsAs_keyPush hb hp).mono (by simp [needsKey])
  | prgaXor b => exact (endsAs_prgaXor hb hp).mono (by simp [needsKey])
  | ksaStep =>
    rw [complete_eq_finish hp]
    exact ((hready rfl).selected.endsAs_ksaStep rfl hp).mono fun _ => trivial
  | ksaRun =>
    have hr := (hready rfl).round
    have hlat : refLatency .ksaRun m.st.r = 3 * ((255 - m.st.r.toNat) + 1) := by
      simp only [refLatency]
      omega
    rw [complete_eq_finish hp, hlat]
    exact ((hready rfl).selected.endsAs_ksaRun rfl hp (Nat.add_sub_of_le hr)).mono fun _ => trivial

/-- Settles O47, command by command. -/
theorem referenceFsmRefinesCompletion : Obligations.ReferenceFsmRefinesCompletion := by
  intro m c _ hb hp hc hkey
  obtain ⟨m', ⟨rfl, hbusy⟩, hidle, hst, hk⟩ := endsAs_complete hb hp hc fun hn =>
    have ⟨hround, hlen, hfits, hkidx⟩ := hkey hn
    ⟨hb, hround, hlen, hfits, hkidx⟩
  exact ⟨hst, hidle, hbusy, hk⟩

/-- Settles O50: a reset edge selects INIT, whose 256 cycles reach the reset registers. -/
theorem referenceFsmInitialisesAfterReset : Obligations.ReferenceFsmInitialisesAfterReset := by
  refine ⟨rfl, fun m => ?_⟩
  obtain ⟨m', ⟨hm', hbusy⟩, hidle, hst, hk⟩ :=
    endsAs_init (m := { m with st := resetEdge m.st, micro := .idle }) rfl rfl
  have hrun : refCycles refLatResetInit (refResetEdge m) = m' := hm'
  rw [hrun, hst]
  exact ⟨rfl, hidle, BitVec.eq_of_toNat_eq (hk trivial), hbusy, engineRegs_complete_resetEdge m.st, rfl, rfl, rfl⟩

end Sys2Proof.Machine
end
